-- ==== Sys2Proof/Word.lean ====
section
/-! DEFINITION. The words of the machine: bytes, 16-bit words, the fields of an instruction word and register
numbers (rules R8, R81, R82). -/

namespace Sys2Proof

/-- An unsigned 8-bit value: a general register, a timer counter, a byte of memory. -/
abbrev Byte := BitVec 8

/-- An unsigned 16-bit value: `I`, `PC`, a stack entry, an instruction word. -/
abbrev Word := BitVec 16

/-- A 4-bit field of an instruction word. -/
abbrev Nibble := BitVec 4

/-- The 12-bit address immediate `NNN`. -/
abbrev Addr12 := BitVec 12

/-- A register number 0..15 (R21, R82): every one of the 16 registers is a legal operand in every register field. -/
abbrev Reg := Fin 16

/-- One of the 16 key values 0x0..0xF (R36). -/
abbrev Key := Fin 16

/-- VF: register 15, the carry, borrow, shift and collision flag (R11, R21). -/
abbrev vf : Reg := 15

end Sys2Proof
end

