-- ==== Sys2Proof/Syntax.lean ====
section
/-! DEFINITION. The instructions: one constructor for each of the 34 rows of spec/opcode_table.json, in the table's
order (rule R85). -/

namespace Sys2Proof

/-- The base CHIP-8 instruction set (R2, R85). `x` and `y` are register numbers, `nn` the 8-bit immediate, `nnn` the
12-bit address immediate, `n` the sprite's row count. -/
inductive Instr where
  /-- `00E0` CLS (R183). -/
  | cls
  /-- `00EE` RET (R131). -/
  | ret
  /-- `1NNN` JP NNN (R132). -/
  | jp (nnn : Addr12)
  /-- `2NNN` CALL NNN (R133). -/
  | call (nnn : Addr12)
  /-- `3XNN` SE VX, NN (R135). -/
  | seImm (x : Reg) (nn : Byte)
  /-- `4XNN` SNE VX, NN (R136). -/
  | sneImm (x : Reg) (nn : Byte)
  /-- `5XY0` SE VX, VY (R137). -/
  | seReg (x y : Reg)
  /-- `6XNN` LD VX, NN (R151). -/
  | ldImm (x : Reg) (nn : Byte)
  /-- `7XNN` ADD VX, NN (R152). -/
  | addImm (x : Reg) (nn : Byte)
  /-- `8XY0` LD VX, VY (R153). -/
  | ldReg (x y : Reg)
  /-- `8XY1` OR VX, VY (R154). -/
  | orReg (x y : Reg)
  /-- `8XY2` AND VX, VY (R155). -/
  | andReg (x y : Reg)
  /-- `8XY3` XOR VX, VY (R156). -/
  | xorReg (x y : Reg)
  /-- `8XY4` ADD VX, VY (R157). -/
  | addReg (x y : Reg)
  /-- `8XY5` SUB VX, VY (R158). -/
  | sub (x y : Reg)
  /-- `8XY6` SHR VX (R159); the Y field is kept, and ignored by the machine. -/
  | shr (x y : Reg)
  /-- `8XY7` SUBN VX, VY (R160). -/
  | subn (x y : Reg)
  /-- `8XYE` SHL VX (R161); the Y field is kept, and ignored by the machine. -/
  | shl (x y : Reg)
  /-- `9XY0` SNE VX, VY (R138). -/
  | sneReg (x y : Reg)
  /-- `ANNN` LD I, NNN (R211). -/
  | ldI (nnn : Addr12)
  /-- `BNNN` JP V0, NNN (R134). -/
  | jpV0 (nnn : Addr12)
  /-- `CXNN` RND VX, NN (R165). -/
  | rnd (x : Reg) (nn : Byte)
  /-- `DXYN` DRW VX, VY, N (R186); `n` is a count 0..15, checked in WellFormed. -/
  | drw (x y : Reg) (n : Nat)
  /-- `EX9E` SKP VX (R231). -/
  | skp (x : Reg)
  /-- `EXA1` SKNP VX (R232). -/
  | sknp (x : Reg)
  /-- `FX07` LD VX, DT (R201). -/
  | ldVxDt (x : Reg)
  /-- `FX0A` LD VX, K (R233). -/
  | ldVxK (x : Reg)
  /-- `FX15` LD DT, VX (R202). -/
  | ldDtVx (x : Reg)
  /-- `FX18` LD ST, VX (R203). -/
  | ldStVx (x : Reg)
  /-- `FX1E` ADD I, VX (R212). -/
  | addI (x : Reg)
  /-- `FX29` LD F, VX (R213). -/
  | ldF (x : Reg)
  /-- `FX33` LD B, VX (R214). -/
  | ldB (x : Reg)
  /-- `FX55` LD [I], VX (R215). -/
  | ldMemVx (x : Reg)
  /-- `FX65` LD VX, [I] (R216). -/
  | ldVxMem (x : Reg)
  deriving DecidableEq, Repr

end Sys2Proof
end

