-- ==== Sys2Proof/Decode.lean ====
section
/-! DEFINITION. Decoding: one 16-bit big-endian word to one instruction, or a rejection by name (rules R80 to R87),
and after it the encoder. -/

namespace Sys2Proof

/-- The operand breakdown of R81: six views of one instruction word, made anew for each fetched word and never kept
(R20: the decoded Operation is not state). -/
structure Operation where
  /-- The opcode group `w[15:12]`. -/
  g : Nibble
  /-- The first register index `w[11:8]`. -/
  x : Nibble
  /-- The second register index `w[7:4]`. -/
  y : Nibble
  /-- The 4-bit immediate `w[3:0]`. -/
  n : Nibble
  /-- The 8-bit immediate `w[7:0]`. -/
  nn : Byte
  /-- The 12-bit address immediate `w[11:0]`. -/
  nnn : Addr12
  deriving DecidableEq, Repr

/-- Why bytes are no instruction. -/
inductive Reject where
  /-- The word matches no row of R85: illegal (R86). -/
  | illegal (w : Word)
  /-- Fewer than the two bytes that every instruction has (R80). -/
  | truncated
  deriving DecidableEq, Repr

/-- All six fields, computed for every word whichever of them its instruction uses (R81, R112). -/
def Operation.ofWord (w : Word) : Operation :=
  { g := w.extractLsb' 12 4, x := w.extractLsb' 8 4, y := w.extractLsb' 4 4, n := w.extractLsb' 0 4,
    nn := w.extractLsb' 0 8, nnn := w.extractLsb' 0 12 }

/-- A register field as a register number (R82). -/
def regOf (f : Nibble) : Reg := f.toFin

/-- Group 0: 00E0 and 00EE, nothing else (R85, R86). -/
def decodeFixed (w : Word) : Except Reject Instr :=
  match w.toNat with
  | 0x00E0 => .ok .cls
  | 0x00EE => .ok .ret
  | _ => .error (.illegal w)

/-- Groups 5 and 9: a register comparison whose `N` must be 0 (R85, R86). -/
def decodeSkipReg (i : Instr) (n : Nibble) (w : Word) : Except Reject Instr :=
  match n.toNat with
  | 0 => .ok i
  | _ => .error (.illegal w)

/-- Group 8: the sub-opcode in `N` (R85, R86). -/
def decodeArith (x y : Reg) (n : Nibble) (w : Word) : Except Reject Instr :=
  match n.toNat with
  | 0x0 => .ok (.ldReg x y)
  | 0x1 => .ok (.orReg x y)
  | 0x2 => .ok (.andReg x y)
  | 0x3 => .ok (.xorReg x y)
  | 0x4 => .ok (.addReg x y)
  | 0x5 => .ok (.sub x y)
  | 0x6 => .ok (.shr x y)
  | 0x7 => .ok (.subn x y)
  | 0xE => .ok (.shl x y)
  | _ => .error (.illegal w)

/-- Group E: the sub-opcode in `NN` (R85, R86). -/
def decodeKey (x : Reg) (nn : Byte) (w : Word) : Except Reject Instr :=
  match nn.toNat with
  | 0x9E => .ok (.skp x)
  | 0xA1 => .ok (.sknp x)
  | _ => .error (.illegal w)

/-- Group F: the sub-opcode in `NN` (R85, R86). -/
def decodeMisc (x : Reg) (nn : Byte) (w : Word) : Except Reject Instr :=
  match nn.toNat with
  | 0x07 => .ok (.ldVxDt x)
  | 0x0A => .ok (.ldVxK x)
  | 0x15 => .ok (.ldDtVx x)
  | 0x18 => .ok (.ldStVx x)
  | 0x1E => .ok (.addI x)
  | 0x29 => .ok (.ldF x)
  | 0x33 => .ok (.ldB x)
  | 0x55 => .ok (.ldMemVx x)
  | 0x65 => .ok (.ldVxMem x)
  | _ => .error (.illegal w)

/-- Selection by the opcode group, then by the group's fixed bits (R84, R85). The 16 groups are all there are: the
last line is reached by none. -/
def selectInstr (op : Operation) (w : Word) : Except Reject Instr :=
  match op.g.toNat with
  | 0x0 => decodeFixed w
  | 0x1 => .ok (.jp op.nnn)
  | 0x2 => .ok (.call op.nnn)
  | 0x3 => .ok (.seImm (regOf op.x) op.nn)
  | 0x4 => .ok (.sneImm (regOf op.x) op.nn)
  | 0x5 => decodeSkipReg (.seReg (regOf op.x) (regOf op.y)) op.n w
  | 0x6 => .ok (.ldImm (regOf op.x) op.nn)
  | 0x7 => .ok (.addImm (regOf op.x) op.nn)
  | 0x8 => decodeArith (regOf op.x) (regOf op.y) op.n w
  | 0x9 => decodeSkipReg (.sneReg (regOf op.x) (regOf op.y)) op.n w
  | 0xA => .ok (.ldI op.nnn)
  | 0xB => .ok (.jpV0 op.nnn)
  | 0xC => .ok (.rnd (regOf op.x) op.nn)
  | 0xD => .ok (.drw (regOf op.x) (regOf op.y) op.n.toNat)
  | 0xE => decodeKey (regOf op.x) op.nn w
  | 0xF => decodeMisc (regOf op.x) op.nn w
  | _ => .error (.illegal w)

/-- `decode(word)` of R81 and R112: a pure function of the word. -/
def decodeWord (w : Word) : Except Reject Instr :=
  selectInstr (Operation.ofWord w) w

/-- The big-endian word of two bytes: the first byte is bits 15..8 (R55, R60). -/
def wordOfBytes (hi lo : Byte) : Word := hi ++ lo

/-- The byte of a word at the lower address, bits 15..8 (R60). -/
def highByte (w : Word) : Byte := w.extractLsb' 8 8

/-- The byte of a word at the higher address, bits 7..0 (R60). -/
def lowByte (w : Word) : Byte := w.extractLsb' 0 8

/-- Decoding of a byte stream: every instruction is exactly two bytes (R80). Answers the instruction and the bytes
after it. -/
def decode : List Byte → Except Reject (Instr × List Byte)
  | [] => .error .truncated
  | [_] => .error .truncated
  | hi :: lo :: rest =>
    match decodeWord (wordOfBytes hi lo) with
    | .ok i => .ok (i, rest)
    | .error r => .error r

/-- The two bytes of the instruction whose bits are `w`, numbered as spec/opcode_table.json numbers them (bit 0 is the
least significant bit of the word); bits at or above `nbits` are 0. -/
def tableWord (nbits w : Nat) : Word := BitVec.ofNat 16 (w % 2 ^ nbits)

/-- The instruction that the decoder reads from an opcode-table word. -/
def decodeTableWord (nbits w : Nat) : Option Instr :=
  match decode [highByte (tableWord nbits w), lowByte (tableWord nbits w)] with
  | .ok (i, _) => some i
  | .error _ => none

/-! ### The encoder, from the layouts of R83 and the patterns of R85 -/

/-- A register number as a 4-bit field. -/
def nib (r : Reg) : Nibble := BitVec.ofFin r

/-- Format `A`: `G NNN`. -/
def formatA (g : Nibble) (nnn : Addr12) : Word := g ++ nnn

/-- Format `XNN`: `G X NN` (format `XSUB` is this one with a fixed `NN`). -/
def formatXNN (g : Nibble) (x : Reg) (nn : Byte) : Word := g ++ nib x ++ nn

/-- Format `XYN`: `G X Y N` (format `XY0` is this one with a fixed `N`). -/
def formatXYN (g : Nibble) (x y : Reg) (n : Nibble) : Word := g ++ nib x ++ nib y ++ n

/-- The word of a well-formed instruction (R85). -/
def encode : Instr → Word
  | .cls => 0x00E0#16
  | .ret => 0x00EE#16
  | .jp nnn => formatA 0x1#4 nnn
  | .call nnn => formatA 0x2#4 nnn
  | .seImm x nn => formatXNN 0x3#4 x nn
  | .sneImm x nn => formatXNN 0x4#4 x nn
  | .seReg x y => formatXYN 0x5#4 x y 0x0#4
  | .ldImm x nn => formatXNN 0x6#4 x nn
  | .addImm x nn => formatXNN 0x7#4 x nn
  | .ldReg x y => formatXYN 0x8#4 x y 0x0#4
  | .orReg x y => formatXYN 0x8#4 x y 0x1#4
  | .andReg x y => formatXYN 0x8#4 x y 0x2#4
  | .xorReg x y => formatXYN 0x8#4 x y 0x3#4
  | .addReg x y => formatXYN 0x8#4 x y 0x4#4
  | .sub x y => formatXYN 0x8#4 x y 0x5#4
  | .shr x y => formatXYN 0x8#4 x y 0x6#4
  | .subn x y => formatXYN 0x8#4 x y 0x7#4
  | .shl x y => formatXYN 0x8#4 x y 0xE#4
  | .sneReg x y => formatXYN 0x9#4 x y 0x0#4
  | .ldI nnn => formatA 0xA#4 nnn
  | .jpV0 nnn => formatA 0xB#4 nnn
  | .rnd x nn => formatXNN 0xC#4 x nn
  | .drw x y n => formatXYN 0xD#4 x y (BitVec.ofNat 4 n)
  | .skp x => formatXNN 0xE#4 x 0x9E#8
  | .sknp x => formatXNN 0xE#4 x 0xA1#8
  | .ldVxDt x => formatXNN 0xF#4 x 0x07#8
  | .ldVxK x => formatXNN 0xF#4 x 0x0A#8
  | .ldDtVx x => formatXNN 0xF#4 x 0x15#8
  | .ldStVx x => formatXNN 0xF#4 x 0x18#8
  | .addI x => formatXNN 0xF#4 x 0x1E#8
  | .ldF x => formatXNN 0xF#4 x 0x29#8
  | .ldB x => formatXNN 0xF#4 x 0x33#8
  | .ldMemVx x => formatXNN 0xF#4 x 0x55#8
  | .ldVxMem x => formatXNN 0xF#4 x 0x65#8

end Sys2Proof
end

