-- ==== Sys2Proof/Config.lean ====
section
/-! DEFINITION. What is fixed for one machine: the parameters of rule R7; and what the spec leaves free: the random byte
of CXNN (R166) and the order of the agents' turns (R250, R251). -/

namespace Sys2Proof

/-- Bytes of the address space (R7 `MEM_SIZE`, R50): addresses 0x000..0xFFF. A fixed row of R7, no parameter. -/
abbrev memSize : Nat := 4096

/-- Bytes of the font: 16 glyphs of 5 bytes (R52). -/
abbrev fontSize : Nat := 80

/-- The configuration fields of R7, each with R7's value as its default. A machine is constructed with one
configuration and keeps it (R267, R280). -/
structure Config where
  /-- `STACK_DEPTH` (D6). -/
  stackDepth : Nat := 16
  /-- `DISPLAY_W` (D35): 64, with 128 admitted. -/
  displayW : Nat := 64
  /-- `DISPLAY_H` (D35): 32, with 64 admitted. -/
  displayH : Nat := 32
  /-- `USER_START` (D1). -/
  userStart : Nat := 0x200
  /-- `USER_END`, exclusive (D2). -/
  userEnd : Nat := 0x1000
  /-- `FONT_BASE` (D4). -/
  fontBase : Nat := 0x000
  /-- `TIMER_HZ`, shared by both timers (R31, R267). -/
  timerHz : Nat := 60
  deriving DecidableEq, Repr

/-- The configurations that the spec's rules make sense for (log entry 3, DEDUCED): the font lies in the reserved
region (R51, R52), user space lies in memory (R51), a sprite of at most 15 rows of 8 pixels reaches no pixel twice
(the premise of R181), and the tick period exists (R31). -/
def Config.valid (c : Config) : Bool :=
  decide (c.fontBase + fontSize ≤ c.userStart ∧ c.userStart ≤ c.userEnd ∧ c.userEnd ≤ memSize ∧
    8 ≤ c.displayW ∧ 16 ≤ c.displayH ∧ 0 < c.timerHz)

/-- FREE VALUE: the byte that the n-th draw of the run returns (R166, D13). It has no body: nothing in Lean can say
what it is, so a claim that mentions it holds for every byte. -/
opaque Config.freeByte : Nat → Byte

namespace Machine

/-- The host's atomic steps: the port actions of R260 to R266. -/
inductive HostAction where
  /-- `load(bytes)` (R58, R260). -/
  | load (bytes : List Byte)
  /-- `run(CPU_HZ, BATCH, cancel)` (R261); the two rates change nothing (R117, R251). -/
  | run (cpuHz batch : Nat)
  /-- The cancellation signal is raised (R244, R261). -/
  | cancel
  /-- The explicit reset (R262, R281). -/
  | reset
  /-- The input latch is written: none, or a key value (R264). -/
  | writeKey (k : Option Key)
  /-- A copy of the display is taken (R266). -/
  | snapshot
  deriving DecidableEq, Repr

/-- One turn of one of the four agents of R250. -/
inductive Turn where
  | cpu
  | delayTick
  | soundTick
  | host (a : HostAction)
  deriving DecidableEq, Repr, Inhabited

end Machine

/-- FREE VALUE: how many turns of a round are taken before the one that is due in it (R251, log entry 14). No body. -/
opaque Config.freeGap : Nat → Nat

/-- FREE VALUE: a turn of a round before the one that is due in it, by the round and the place in it (R250, log entry
14). No body: it may be any agent's, and any action of the host. -/
opaque Config.freeTurn : Nat → Nat → Machine.Turn

end Sys2Proof
end

