-- ==== Sys2Proof/Machine/State.lean ====
section
/-! DEFINITION. Everything the spec gives the machine as plain data (rules R20, R37, R240, R265), and the state after construction (R280, R282). -/

namespace Sys2Proof.Machine

/-- The engine state machine's states (R263). -/
inductive Engine where
  | idle
  | running
  | halted
  deriving DecidableEq, Repr

/-- One timer instance: a counter and its action-requested latch (R31). -/
structure Timer where
  counter : Byte
  latch : Bool
  deriving DecidableEq, Repr

/-- The five kinds of fault of the block (R240). -/
inductive FaultKind where
  | outOfRange
  | malformedInstruction
  | stackOverflow
  | stackUnderflow
  | malformedWordRead
  deriving DecidableEq, Repr

/-- What a fault record says beside its kind (R240, column `info`): nothing, an address, or an instruction word. An
address is a number that may lie beyond 16 bits (R63). -/
inductive FaultInfo where
  | none
  | address (a : Nat)
  | word (w : Word)
  deriving DecidableEq, Repr

/-- A fault record (R37, R240, R241): the kind, its numeric code, the address of the instruction that faulted, and the
`info` of R240. -/
structure FaultRecord where
  kind : FaultKind
  code : Nat
  pc : Word
  info : FaultInfo
  deriving DecidableEq, Repr

/-- The duration of a tone, `ticks / hz` seconds, as the exact fraction (R256). -/
structure Duration where
  ticks : Nat
  hz : Nat
  deriving DecidableEq, Repr

/-- The three outbound notifications (R265). -/
inductive Notification where
  /-- A draw or a clear has occurred since the last delay tick (R255). -/
  | displayUpdated
  /-- Emit a tone for this long (R256). -/
  | toneRequest (d : Duration)
  /-- The run ended with this fault (R241). -/
  | faultOccurred (f : FaultRecord)
  deriving DecidableEq, Repr

/-- Where the open order of the turns stands (R250, R251, log entry 14): the round, and how many turns of the round have
been taken before the one that is due in it. -/
structure Order where
  round : Nat
  used : Nat
  deriving DecidableEq, Repr

/-- Memory: the bytes that differ from what an unlisted address reads as (Machine/Memory.lean), at strictly rising
addresses. -/
abbrev Memory := List Host.Cell

/-- The state of the block. `cfg` to `events` are the spec's (R7, R20); `draws`, `schedule` and `order` are the model's
own (log entries 1, 2 and 14). -/
structure State where
  /-- The configuration, fixed at construction (R7, R267). -/
  cfg : Config
  /-- The general registers V0..VF (R21). -/
  v : Vector Byte 16
  /-- The index register (R24). -/
  i : Word
  /-- The program counter: the address of the instruction being executed (R25). -/
  pc : Word
  /-- The call stack, the most recent return address last (R29). -/
  stack : List Word
  /-- The delay timer: `DT` and `DT.latch` (R31). -/
  dt : Timer
  /-- The sound timer: `ST` and `ST.latch` (R31). -/
  st : Timer
  /-- The framebuffer, row by row from the top, each row from the left, true meaning set (R35, R180). -/
  display : List Bool
  /-- Memory (R50). -/
  mem : Memory
  /-- The input latch: none, or the pressed key (R36). -/
  key : Option Key
  /-- Idle, Running or Halted (R263). -/
  engine : Engine
  /-- The fault record (R241). -/
  fault : Option FaultRecord
  /-- The history of notifications, the oldest first (R265). -/
  events : List Notification
  /-- MODEL'S OWN: how many random bytes have been drawn, the argument of `Config.freeByte` (R166, log entry 1). -/
  draws : Nat
  /-- MODEL'S OWN: the turns that are settled, the next first (R250, log entry 2). -/
  schedule : List Turn
  /-- MODEL'S OWN: where the open order stands, which gives the turns after the settled ones (R251, log entry 14). -/
  order : Order
  deriving DecidableEq, Repr

/-- Why a step stops with no next state. The spec's own faults are none of these: they are fault entries (R241), which
lead to a next state, Halted. -/
inductive Fault where
  /-- Raised by `step` alone, in a state whose configuration is none of those the rules are written for
  (`Config.valid`, log entry 3). Safe: no hardware has such a state, and reset and every step keep the configuration. -/
  | configurationNotAdmitted
  deriving DecidableEq, Repr

/-- Why an instruction is given no meaning. -/
inductive Refusal where
  /-- Raised by an arm of `exec` whose instruction has no meaning yet, with its mnemonic. No arm does: every
  instruction is modelled. Safe. -/
  | notModelled (mnemonic : String)
  deriving DecidableEq, Repr

/-- The state after construction with a configuration (R280, R282): the engine Idle, nothing loaded; the font is what
unlisted memory reads as. -/
def State.constructed (c : Config) : State :=
  { cfg := c
    v := Vector.replicate 16 0#8
    i := 0#16
    pc := BitVec.ofNat 16 c.userStart
    stack := []
    dt := { counter := 0#8, latch := false }
    st := { counter := 0#8, latch := false }
    display := List.replicate (c.displayW * c.displayH) false
    mem := []
    key := none
    engine := .idle
    fault := none
    events := []
    draws := 0
    schedule := []
    order := { round := 0, used := 0 } }

/-- The machine right after construction with R7's default parameters. The explicit reset of a machine that has run is
a host action (R281, Machine/HostPort.lean). -/
def State.reset : State := State.constructed {}

/-- What a meaning answers. -/
abbrev Result := Host.Outcome State Fault Refusal

end Sys2Proof.Machine
end

