-- ==== Sys2Proof/Machine/Flags.lean ====
section
/-! DEFINITION. Every flag the machine computes, beside the result it belongs to (rules R150, R157 to R162, R184): exact
sums and comparisons of unsigned numbers, narrowed at the end. -/

namespace Sys2Proof.Machine

/-- A flag as the value VF takes: 1 or 0. -/
def flagByte (f : Bool) : Byte := if f then 1#8 else 0#8

/-- `a + b mod 2^8` (R152, R157). -/
def sumByte (a b : Byte) : Byte := BitVec.ofNat 8 (a.toNat + b.toNat)

/-- The carry flag of `a + b`: the sum exceeds 0xFF (R157). -/
def carryFlag (a b : Byte) : Bool := decide (0xFF < a.toNat + b.toNat)

/-- `a − b mod 2^8` (R158, R160). -/
def diffByte (a b : Byte) : Byte := BitVec.ofInt 8 ((a.toNat : Int) - (b.toNat : Int))

/-- The not-borrow flag of `a − b`: the minuend is not less than the subtrahend (R158, R160, C1). -/
def notBorrowFlag (a b : Byte) : Bool := decide (b.toNat ≤ a.toNat)

/-- `a >> 1`, a 0 entering at bit 7 (R159). -/
def shiftRightByte (a : Byte) : Byte := a >>> 1

/-- The bit that a right shift by one shifts out (R159). -/
def shiftRightFlag (a : Byte) : Bool := a.getLsbD 0

/-- `a << 1 mod 2^8`, a 0 entering at bit 0 (R161). -/
def shiftLeftByte (a : Byte) : Byte := a <<< 1

/-- The bit that a left shift by one shifts out (R161). -/
def shiftLeftFlag (a : Byte) : Bool := a.getLsbD 7

end Sys2Proof.Machine
end

