-- ==== Sys2Proof/Machine/Memory.lean ====
section
/-! DEFINITION. Memory as a canonical list of cells: what an unlisted address reads as, one byte read, one byte
written, and the canonical form (rules R50 to R53, R59). No range is checked here: the arbiter does that
(Machine/Ops.lean). -/

namespace Sys2Proof.Machine

/-- The 80 bytes of the font, glyphs 0 to F, 5 rows each (R52). -/
def fontBytes : List Byte :=
  [0xF0, 0x90, 0x90, 0x90, 0xF0] ++ [0x20, 0x60, 0x20, 0x20, 0x70] ++
  [0xF0, 0x10, 0xF0, 0x80, 0xF0] ++ [0xF0, 0x10, 0xF0, 0x10, 0xF0] ++
  [0x90, 0x90, 0xF0, 0x10, 0x10] ++ [0xF0, 0x80, 0xF0, 0x10, 0xF0] ++
  [0xF0, 0x80, 0xF0, 0x90, 0xF0] ++ [0xF0, 0x10, 0x20, 0x40, 0x40] ++
  [0xF0, 0x90, 0xF0, 0x90, 0xF0] ++ [0xF0, 0x90, 0xF0, 0x10, 0xF0] ++
  [0xF0, 0x90, 0xF0, 0x90, 0x90] ++ [0xE0, 0x90, 0xE0, 0x90, 0xE0] ++
  [0xF0, 0x80, 0x80, 0x80, 0xF0] ++ [0xE0, 0x90, 0x90, 0x90, 0xE0] ++
  [0xF0, 0x80, 0xF0, 0x80, 0xF0] ++ [0xF0, 0x80, 0xF0, 0x80, 0x80]

/-- What an unlisted address reads as: the construction contents, the font at `FONT_BASE` and 0x00 elsewhere (R52,
R282). -/
def Memory.unlisted (c : Config) (a : Nat) : Byte :=
  if c.fontBase ≤ a ∧ a < c.fontBase + fontSize then fontBytes.getD (a - c.fontBase) 0#8 else 0#8

/-- The listed byte at an address, if any. -/
def Memory.find (a : Nat) : Memory → Option Byte
  | [] => none
  | (k, b) :: m => if k = a then some b else Memory.find a m

/-- The byte at an address. -/
def Memory.read (c : Config) (m : Memory) (a : Nat) : Byte :=
  (Memory.find a m).getD (Memory.unlisted c a)

/-- Lists a byte at an address, keeping the addresses rising. -/
def Memory.put (a : Nat) (b : Byte) : Memory → Memory
  | [] => [(a, b)]
  | (k, v) :: m =>
    if a < k then (a, b) :: (k, v) :: m
    else if k = a then (a, b) :: m
    else (k, v) :: Memory.put a b m

/-- Lists no byte at an address. -/
def Memory.drop (a : Nat) (m : Memory) : Memory :=
  m.filter (fun cell => decide (cell.1 ≠ a))

/-- `mem[a] <- b`: a byte equal to what the unlisted address reads as is not listed. -/
def Memory.write (c : Config) (m : Memory) (a : Nat) (b : Byte) : Memory :=
  if b = Memory.unlisted c a then Memory.drop a m else Memory.put a b m

/-- Consecutive bytes written in ascending order (R58). -/
def Memory.writeAll (c : Config) (m : Memory) (a : Nat) : List Byte → Memory
  | [] => m
  | b :: bs => Memory.writeAll c (Memory.write c m a b) (a + 1) bs

/-- `mem[a] <- 0x00` for every `a` of user space (R59): user space lists nothing, and in a valid configuration the font
lies below it. -/
def Memory.clearUser (c : Config) (m : Memory) : Memory :=
  m.filter (fun cell => !decide (c.userStart ≤ cell.1 ∧ cell.1 < c.userEnd))

/-- The canonical form: addresses strictly rising, every address one that exists (R50), no byte listed that the unlisted
address reads as. -/
abbrev Memory.wf (c : Config) (m : Memory) : Prop :=
  m.Pairwise (fun p q => p.1 < q.1) ∧
    ∀ cell ∈ m, cell.1 < memSize ∧ cell.2 ≠ Memory.unlisted c cell.1

end Sys2Proof.Machine
end

