-- ==== Sys2Proof/Machine/Operands.lean ====
section
/-! DEFINITION. The operand forms: what the fields of an instruction name or stand for (rules R82, R134, R180, R213 to
R216, R230). -/

namespace Sys2Proof.Machine

/-- `V[x]`. -/
def State.readV (s : State) (x : Reg) : Byte := s.v[x]

/-- `mem[a]`, whatever region it lies in. -/
def State.byteAt (s : State) (a : Nat) : Byte := Memory.read s.cfg s.mem a

/-- `display[x][y]`; false where there is no pixel. -/
def State.pixel (s : State) (x y : Nat) : Bool :=
  decide (x < s.cfg.displayW ∧ y < s.cfg.displayH) && s.display.getD (y * s.cfg.displayW + x) false

/-- `zext_16(NNN)` (R82). -/
def addressOf (nnn : Addr12) : Word := nnn.setWidth 16

/-- `zext_16(NNN) + V[0]`, not masked to 12 bits (R134). -/
def offsetAddress (nnn : Addr12) (v0 : Byte) : Word := addressOf nnn + v0.setWidth 16

/-- V0..VF in order. -/
def allRegs : List Reg := [0, 1, 2, 3, 4, 5, 6, 7, 8, 9, 10, 11, 12, 13, 14, 15]

/-- V0..VX, both included (R215, R216). -/
def regsUpTo (x : Reg) : List Reg := allRegs.take (x.val + 1)

/-- `FONT_BASE + 5 · v[3:0]`, the address of the glyph of a hexadecimal digit (R213). -/
def glyphAddress (c : Config) (v : Byte) : Word := BitVec.ofNat 16 (c.fontBase + 5 * (v.toNat % 16))

/-- The three decimal digits of a value, hundreds first (R214). -/
def decimalDigits (v : Byte) : List Byte :=
  [BitVec.ofNat 8 (v.toNat / 100), BitVec.ofNat 8 (v.toNat / 10 % 10), BitVec.ofNat 8 (v.toNat % 10)]

/-- `pressed(v)`: the input latch holds a key equal to the 8-bit value `v` (R230); a value of 0x10 or more never is. -/
def keyPressed (key : Option Key) (v : Byte) : Bool :=
  match key with
  | none => false
  | some k => decide (k.val = v.toNat)

/-- A key value as a register value 0x0..0xF (R233). -/
def keyByte (k : Key) : Byte := BitVec.ofNat 8 k.val

/-- Pixel column `c` (0..7) of a sprite row: bit 7 is the leftmost (R180). -/
def spriteBit (row : Byte) (c : Nat) : Bool := row.getLsbD (7 - c)

end Sys2Proof.Machine
end

