-- ==== Sys2Proof/Machine/Ops.lean ====
section
/-! DEFINITION. The operations the instructions share: the updates of State, the arbiter (rules R54 to R59), the call
stack (R29), taking a fault (R241), the advance and the skips (R114, R130), and the fetch (R111). -/

namespace Sys2Proof.Machine

/-! ### Updates -/

/-- `V[x] <- b`. -/
def State.writeV (s : State) (x : Reg) (b : Byte) : State := { s with v := s.v.set x b }

/-- `PC <- a`. -/
def State.setPc (s : State) (a : Word) : State := { s with pc := a }

/-- `I <- a`. -/
def State.setI (s : State) (a : Word) : State := { s with i := a }

/-- The call stack becomes `l`. -/
def State.setStack (s : State) (l : List Word) : State := { s with stack := l }

/-- The delay timer becomes `t`. -/
def State.setDt (s : State) (t : Timer) : State := { s with dt := t }

/-- The sound timer becomes `t`. -/
def State.setSt (s : State) (t : Timer) : State := { s with st := t }

/-- The framebuffer becomes `d`. -/
def State.setDisplay (s : State) (d : List Bool) : State := { s with display := d }

/-- Memory becomes `m`. -/
def State.setMem (s : State) (m : Memory) : State := { s with mem := m }

/-- `emit e`: appends a notification (R9, R265). -/
def State.emit (s : State) (e : Notification) : State := { s with events := s.events ++ [e] }

/-- One more random byte has been drawn (R166). -/
def State.countDraw (s : State) : State := { s with draws := s.draws + 1 }

/-! ### Taking a fault -/

/-- What a `raise` carries: the kind and the `info` of R240. -/
structure Raise where
  kind : FaultKind
  info : FaultInfo
  deriving DecidableEq, Repr

/-- The numeric code of a kind (R240, D29). -/
def faultCode : FaultKind → Nat
  | .outOfRange => 1
  | .malformedInstruction => 2
  | .stackOverflow => 3
  | .stackUnderflow => 4
  | .malformedWordRead => 5

/-- The fault record that fault entry writes in state `s` (R241): `pc` is the faulting instruction's address. -/
def faultRecord (r : Raise) (s : State) : FaultRecord :=
  { kind := r.kind, code := faultCode r.kind, pc := s.pc, info := r.info }

/-- FAULT ENTRY (R241): the record is written, the engine is Halted, one notification is emitted; PC stays, and nothing
is undone. There is no handler and no return from a fault (R246): the only way on is the host's reset. -/
def enterFault (r : Raise) (s : State) : State :=
  { s with
    fault := some (faultRecord r s)
    engine := .halted
    events := s.events ++ [.faultOccurred (faultRecord r s)] }

/-! ### The end of an instruction -/

/-- `PC <- (PC + 2) mod 2^16` (R26, R114). -/
def State.advance (s : State) : State := s.setPc (s.pc + 2#16)

/-- A skip: PC + 4 where the condition holds, else PC + 2 (R130). -/
def State.skipIf (s : State) (c : Bool) : State := s.setPc (s.pc + if c then 4#16 else 2#16)

/-- How far a sequence of statements came: to its end, or to a `raise` after the statements before it took effect
(R9, R113). -/
inductive Progress where
  | done (s : State)
  | raised (r : Raise) (s : State)
  deriving DecidableEq, Repr

/-- The end of an instruction that is no control transfer: the advance, or fault entry on what has been done (R114,
R116, R241). -/
def finish : Progress → Result
  | .done s => .next s.advance
  | .raised r s => .next (enterFault r s)

/-! ### The memory arbiter -/

/-- The addresses that the byte operations accept: user space (R51, R54, R56). -/
def inUser (c : Config) (a : Nat) : Bool := decide (c.userStart ≤ a ∧ a < c.userEnd)

/-- `Fault(OutOfRange, a)`. -/
def outOfRange (a : Nat) : Raise := { kind := .outOfRange, info := .address a }

/-- `readByte(a)` (R54). -/
def readByte (s : State) (a : Nat) : Except Raise Byte :=
  if inUser s.cfg a then .ok (s.byteAt a) else .error (outOfRange a)

/-- `readWord(a)` (R55): big-endian, checked against the end of memory only. -/
def readWord (s : State) (a : Nat) : Except Raise Word :=
  if memSize ≤ a + 1 then .error { kind := .malformedWordRead, info := .address a }
  else .ok (wordOfBytes (s.byteAt a) (s.byteAt (a + 1)))

/-- `writeByte(a, b)` (R56). -/
def writeByte (s : State) (a : Nat) (b : Byte) : Progress :=
  if inUser s.cfg a then .done (s.setMem (Memory.write s.cfg s.mem a b)) else .raised (outOfRange a) s

/-- `readSprite(a, n)` (R57): no restriction to user space, checked against the end of memory only when `n > 0`. -/
def readSprite (s : State) (a n : Nat) : Except Raise (List Byte) :=
  if 0 < n ∧ memSize < a + n then .error (outOfRange (max a memSize))
  else .ok ((List.range n).map (fun k => s.byteAt (a + k)))

/-- Byte writes at `a`, `a + 1`, …, each checked when it is made; a fault leaves the earlier ones done (R63). The
addresses are numbers and do not wrap. -/
def writeBytes (s : State) (a : Nat) : List Byte → Progress
  | [] => .done s
  | b :: bs =>
    match writeByte s a b with
    | .done s' => writeBytes s' (a + 1) bs
    | .raised r s' => .raised r s'

/-- Byte reads at `a`, `a + 1`, … into the listed registers, each checked when it is made; a fault leaves the earlier
ones done (R63). -/
def readIntoRegs (s : State) (a : Nat) : List Reg → Progress
  | [] => .done s
  | x :: xs =>
    match readByte s a with
    | .ok b => readIntoRegs (s.writeV x b) (a + 1) xs
    | .error r => .raised r s

/-! ### The call stack -/

/-- `push(a)` (R29): a push that faults leaves the stack unchanged (R30). -/
def push (s : State) (a : Word) : Except Raise State :=
  if s.cfg.stackDepth ≤ s.stack.length then .error { kind := .stackOverflow, info := .none }
  else .ok (s.setStack (s.stack ++ [a]))

/-- `pop()` (R29): the most recent entry and the state without it. -/
def pop (s : State) : Except Raise (Word × State) :=
  match s.stack.getLast? with
  | none => .error { kind := .stackUnderflow, info := .none }
  | some a => .ok (a, s.setStack s.stack.dropLast)

/-! ### Fetch and decode -/

/-- The fetch of R111: the word at PC, of any region and any alignment. -/
def fetch (s : State) : Except Raise Word := readWord s s.pc.toNat

/-- `Fault(MalformedInstruction, w)` (R86, R112). -/
def malformedInstruction (w : Word) : Raise := { kind := .malformedInstruction, info := .word w }

/-! ### Placing an instruction from outside -/

/-- Memory with the two bytes of a word at `a`, `a + 1`, big-endian (R60), whatever region they lie in. -/
def placeWord (s : State) (a : Nat) (w : Word) : State :=
  s.setMem (Memory.writeAll s.cfg s.mem a [highByte w, lowByte w])

end Sys2Proof.Machine
end

