-- ==== Sys2Proof/Machine/Arith.lean ====
section
/-! DEFINITION. Register loads, arithmetic and logic, and the random byte (rules R150 to R166). None faults. -/

namespace Sys2Proof.Machine

/-- `V[x] <- r`, then the advance. -/
def finishWrite (x : Reg) (r : Byte) (s : State) : Result := finish (.done (s.writeV x r))

/-- `V[x] <- r`, then `VF <- f`, the flag last, then the advance (R150, D9). -/
def finishFlagged (x : Reg) (r : Byte) (f : Bool) (s : State) : Result :=
  finish (.done ((s.writeV x r).writeV vf (flagByte f)))

/-- `6XNN` LD VX, NN (R151). -/
def execLdImm (x : Reg) (nn : Byte) (s : State) : Result := finishWrite x nn s

/-- `7XNN` ADD VX, NN (R152): no flag. -/
def execAddImm (x : Reg) (nn : Byte) (s : State) : Result := finishWrite x (sumByte (s.readV x) nn) s

/-- `8XY0` LD VX, VY (R153). -/
def execLdReg (x y : Reg) (s : State) : Result := finishWrite x (s.readV y) s

/-- `8XY1` OR VX, VY (R154): VF is not reset. -/
def execOrReg (x y : Reg) (s : State) : Result := finishWrite x (s.readV x ||| s.readV y) s

/-- `8XY2` AND VX, VY (R155). -/
def execAndReg (x y : Reg) (s : State) : Result := finishWrite x (s.readV x &&& s.readV y) s

/-- `8XY3` XOR VX, VY (R156). -/
def execXorReg (x y : Reg) (s : State) : Result := finishWrite x (s.readV x ^^^ s.readV y) s

/-- `8XY4` ADD VX, VY (R157). -/
def execAddReg (x y : Reg) (s : State) : Result :=
  finishFlagged x (sumByte (s.readV x) (s.readV y)) (carryFlag (s.readV x) (s.readV y)) s

/-- `8XY5` SUB VX, VY (R158). -/
def execSub (x y : Reg) (s : State) : Result :=
  finishFlagged x (diffByte (s.readV x) (s.readV y)) (notBorrowFlag (s.readV x) (s.readV y)) s

/-- `8XY6` SHR VX (R159): shifts `V[X]` in place; the Y field is ignored (D10). -/
def execShr (x : Reg) (s : State) : Result :=
  finishFlagged x (shiftRightByte (s.readV x)) (shiftRightFlag (s.readV x)) s

/-- `8XY7` SUBN VX, VY (R160). -/
def execSubn (x y : Reg) (s : State) : Result :=
  finishFlagged x (diffByte (s.readV y) (s.readV x)) (notBorrowFlag (s.readV y) (s.readV x)) s

/-- `8XYE` SHL VX (R161): shifts `V[X]` in place; the Y field is ignored (D10). -/
def execShl (x : Reg) (s : State) : Result :=
  finishFlagged x (shiftLeftByte (s.readV x)) (shiftLeftFlag (s.readV x)) s

/-- `draw()`: the byte this execution of CXNN draws, a free value (R166, log entry 1). -/
def drawnByte (s : State) : Byte := Config.freeByte s.draws

/-- `CXNN` RND VX, NN (R165). -/
def execRnd (x : Reg) (nn : Byte) (s : State) : Result := finishWrite x (drawnByte s &&& nn) s.countDraw

end Sys2Proof.Machine
end

