-- ==== Sys2Proof/Machine/Blit.lean ====
section
/-! DEFINITION. The XOR sprite-blit engine and the display instructions (rules R180 to R187). -/

namespace Sys2Proof.Machine

/-- A framebuffer while a sprite is drawn on it, and whether a set pixel has been cleared so far. -/
structure Canvas where
  display : List Bool
  collided : Bool
  deriving DecidableEq, Repr

/-- Toggles the pixel at column `px`, row `py` of the grid (the body of R181's inner loop). -/
def togglePixel (c : Config) (k : Canvas) (px py : Nat) : Canvas :=
  let old := k.display.getD (py * c.displayW + px) false
  { display := k.display.set (py * c.displayW + px) (!old), collided := k.collided || old }

/-- One row byte at column `x`, row `y`, from pixel column `j` on, each column wrapped by itself (R181, R185). -/
def drawColumns (c : Config) (x y : Nat) (row : Byte) : List Nat → Canvas → Canvas
  | [], k => k
  | j :: js, k =>
    if spriteBit row j then
      drawColumns c x y row js (togglePixel c k ((x + j) % c.displayW) (y % c.displayH))
    else drawColumns c x y row js k

/-- The rows of a sprite from row `y` on, each row wrapped by itself (R181, R185). -/
def drawRows (c : Config) (x y : Nat) : List Byte → Canvas → Canvas
  | [], k => k
  | row :: rows, k => drawRows c x (y + 1) rows (drawColumns c x y row [0, 1, 2, 3, 4, 5, 6, 7] k)

/-- `drawSprite(x, y, rows)` (R181, R184). -/
def drawSprite (c : Config) (d : List Bool) (x y : Nat) (rows : List Byte) : Canvas :=
  drawRows c x y rows { display := d, collided := false }

/-- `clear()`: every pixel false (R182). -/
def clearDisplay (s : State) : State :=
  s.setDisplay (List.replicate (s.cfg.displayW * s.cfg.displayH) false)

/-- A display refresh is due: `DT.latch <- true` (R33). -/
def requestRefresh (s : State) : State := s.setDt { s.dt with latch := true }

/-- `00E0` CLS (R183). -/
def execCls (s : State) : Result := .next (requestRefresh (clearDisplay s)).advance

/-- DXYN once its rows are fetched: the coordinates are read here, after the reset of VF (R186, D21). -/
def drawFetched (x y : Reg) (rows : List Byte) (s : State) : State :=
  let k := drawSprite s.cfg s.display (s.readV x).toNat (s.readV y).toNat rows
  requestRefresh ((s.setDisplay k.display).writeV vf (flagByte k.collided))

/-- `DXYN` DRW VX, VY, N (R186): VF is reset first, and stays reset where the fetch of the rows faults. -/
def execDrw (x y : Reg) (n : Nat) (s : State) : Result :=
  match readSprite (s.writeV vf 0#8) s.i.toNat n with
  | .ok rows => finish (.done (drawFetched x y rows (s.writeV vf 0#8)))
  | .error r => finish (.raised r (s.writeV vf 0#8))

end Sys2Proof.Machine
end

