-- ==== Sys2Proof/Machine/Control.lean ====
section
/-! DEFINITION. Control transfer and the register skips (rules R130 to R138). Each writes PC itself; none is followed by
the advance. -/

namespace Sys2Proof.Machine

/-- `00EE` RET (R131). -/
def execRet (s : State) : Result :=
  match pop s with
  | .ok (a, s') => .next (s'.setPc a)
  | .error r => .next (enterFault r s)

/-- `1NNN` JP NNN (R132). -/
def execJp (nnn : Addr12) (s : State) : Result := .next (s.setPc (addressOf nnn))

/-- `2NNN` CALL NNN (R133). -/
def execCall (nnn : Addr12) (s : State) : Result :=
  match push s (s.pc + 2#16) with
  | .ok s' => .next (s'.setPc (addressOf nnn))
  | .error r => .next (enterFault r s)

/-- `BNNN` JP V0, NNN (R134). -/
def execJpV0 (nnn : Addr12) (s : State) : Result := .next (s.setPc (offsetAddress nnn (s.readV 0)))

/-- `3XNN` SE VX, NN (R135). -/
def execSeImm (x : Reg) (nn : Byte) (s : State) : Result := .next (s.skipIf (s.readV x == nn))

/-- `4XNN` SNE VX, NN (R136). -/
def execSneImm (x : Reg) (nn : Byte) (s : State) : Result := .next (s.skipIf (s.readV x != nn))

/-- `5XY0` SE VX, VY (R137). -/
def execSeReg (x y : Reg) (s : State) : Result := .next (s.skipIf (s.readV x == s.readV y))

/-- `9XY0` SNE VX, VY (R138). -/
def execSneReg (x y : Reg) (s : State) : Result := .next (s.skipIf (s.readV x != s.readV y))

end Sys2Proof.Machine
end

