-- ==== Sys2Proof/Machine/IndexMemory.lean ====
section
/-! DEFINITION. The index register and the memory transfers (rules R210 to R216). FX33, FX55 and FX65 leave `I` as it
is. -/

namespace Sys2Proof.Machine

/-- `ANNN` LD I, NNN (R211). -/
def execLdI (nnn : Addr12) (s : State) : Result := finish (.done (s.setI (addressOf nnn)))

/-- `FX1E` ADD I, VX (R212): modulo 2^16, no flag. -/
def execAddI (x : Reg) (s : State) : Result := finish (.done (s.setI (s.i + (s.readV x).setWidth 16)))

/-- `FX29` LD F, VX (R213). -/
def execLdF (x : Reg) (s : State) : Result := finish (.done (s.setI (glyphAddress s.cfg (s.readV x))))

/-- `FX33` LD B, VX (R214). -/
def execLdB (x : Reg) (s : State) : Result := finish (writeBytes s s.i.toNat (decimalDigits (s.readV x)))

/-- `FX55` LD [I], VX (R215). -/
def execLdMemVx (x : Reg) (s : State) : Result :=
  finish (writeBytes s s.i.toNat ((regsUpTo x).map s.readV))

/-- `FX65` LD VX, [I] (R216). -/
def execLdVxMem (x : Reg) (s : State) : Result := finish (readIntoRegs s s.i.toNat (regsUpTo x))

end Sys2Proof.Machine
end

