-- ==== Sys2Proof/Machine/Keys.lean ====
section
/-! DEFINITION. The key input instructions (rules R230 to R234). -/

namespace Sys2Proof.Machine

/-- `EX9E` SKP VX (R231). -/
def execSkp (x : Reg) (s : State) : Result := .next (s.skipIf (keyPressed s.key (s.readV x)))

/-- `EXA1` SKNP VX (R232). -/
def execSknp (x : Reg) (s : State) : Result := .next (s.skipIf (!keyPressed s.key (s.readV x)))

/-- `FX0A` LD VX, K (R233). With no key the CPU agent is held: its turn changes nothing, and the instruction is still the
one at PC (R234, log entry 4). The key is not consumed. -/
def execLdVxK (x : Reg) (s : State) : Result :=
  match s.key with
  | none => .next s
  | some k => finish (.done (s.writeV x (keyByte k)))

end Sys2Proof.Machine
end

