-- ==== Sys2Proof/Machine/Timers.lean ====
section
/-! DEFINITION. The timer instructions (rules R200 to R204) and the two tick agents (rules R252, R255 to R257). -/

namespace Sys2Proof.Machine

/-- `FX07` LD VX, DT (R201). -/
def execLdVxDt (x : Reg) (s : State) : Result := finish (.done (s.writeV x s.dt.counter))

/-- `FX15` LD DT, VX (R202): the latch is not changed. -/
def execLdDtVx (x : Reg) (s : State) : Result :=
  finish (.done (s.setDt { s.dt with counter := s.readV x }))

/-- `FX18` LD ST, VX (R203): a nonzero value also sets the latch; zero leaves it. -/
def execLdStVx (x : Reg) (s : State) : Result :=
  finish (.done (s.setSt { counter := s.readV x, latch := s.st.latch || decide (s.readV x ≠ 0#8) }))

/-- One decrement, never below zero (R32). -/
def countDown (c : Byte) : Byte := if c = 0#8 then 0#8 else c - 1#8

/-- The delay tick's effect (R255): the decrement, then the display notification if the latch is set, which clears it. -/
def delayTickBody (s : State) : State :=
  if s.dt.latch then
    (s.setDt { counter := countDown s.dt.counter, latch := false }).emit .displayUpdated
  else s.setDt { s.dt with counter := countDown s.dt.counter }

/-- The tone request of a sound tick that starts with counter `c0`: `c0 / TIMER_HZ` seconds (R256, D27). -/
def toneOf (cfg : Config) (c0 : Byte) : Notification := .toneRequest { ticks := c0.toNat, hz := cfg.timerHz }

/-- The sound tick's effect (R256): the decrement; with the latch set, a tone request if the counter was above zero, and
the latch is cleared if the counter is now zero (C3). -/
def soundTickBody (s : State) : State :=
  let c0 := s.st.counter
  let s' := s.setSt { counter := countDown c0, latch := s.st.latch && decide (countDown c0 ≠ 0#8) }
  if s.st.latch ∧ c0 ≠ 0#8 then s'.emit (toneOf s.cfg c0) else s'

/-- The delay-tick agent's step, enabled only while Running (R252, R255); otherwise its turn changes nothing. -/
def delayTick (s : State) : State := if s.engine = .running then delayTickBody s else s

/-- The sound-tick agent's step, enabled only while Running (R252, R256); otherwise its turn changes nothing. -/
def soundTick (s : State) : State := if s.engine = .running then soundTickBody s else s

end Sys2Proof.Machine
end

