-- ==== Sys2Proof/Machine/HostPort.lean ====
section
/-! DEFINITION. The host's ports and the engine state machine (rules R58, R59, R244, R260 to R266, R281). An action that
the engine's state does not accept is no host step: it changes nothing. -/

namespace Sys2Proof.Machine

/-- `load(bytes)` (R58): the first `USER_END − USER_START` bytes at `USER_START`; the rest are discarded. -/
def loadBody (bytes : List Byte) (s : State) : State :=
  s.setMem (Memory.writeAll s.cfg s.mem s.cfg.userStart (bytes.take (s.cfg.userEnd - s.cfg.userStart)))

/-- The explicit reset (R262, R281): user memory, registers, `I`, PC, stack, timers and display; the engine Idle and no
fault record. The font, the key and the events are kept. -/
def resetBody (s : State) : State :=
  { s with
    v := Vector.replicate 16 0#8
    i := 0#16
    pc := BitVec.ofNat 16 s.cfg.userStart
    stack := []
    dt := { counter := 0#8, latch := false }
    st := { counter := 0#8, latch := false }
    display := List.replicate (s.cfg.displayW * s.cfg.displayH) false
    mem := Memory.clearUser s.cfg s.mem
    engine := .idle
    fault := none }

/-- A host action's effect where the engine accepts it, by R263's table; otherwise nothing changes. -/
def hostStep (a : HostAction) (s : State) : State :=
  match a with
  | .load bytes => if s.engine = .idle then loadBody bytes s else s
  | .run _ _ => if s.engine = .idle then { s with engine := .running } else s
  | .cancel => if s.engine = .running then { s with engine := .halted } else s
  | .reset => if s.engine = .running then s else resetBody s
  | .writeKey k => { s with key := k }
  | .snapshot => s

/-- What the display read port gives (R266): a copy of the grid, row by row. -/
def displaySnapshot (s : State) : List Bool := s.display

end Sys2Proof.Machine
end

