-- ==== Sys2Proof/Machine/Cycle.lean ====
section
/-! DEFINITION. The agents' turns (rules R110 to R116, R250): one turn is one atomic step. -/

namespace Sys2Proof.Machine

/-- `cpu_step()` of R116: fetch, decode, execute, advance. -/
def cpuStep (s : State) : Result :=
  match fetch s with
  | .error r => .next (enterFault r s)
  | .ok w =>
    match decodeWord w with
    | .error _ => .next (enterFault (malformedInstruction w) s)
    | .ok i => exec i s

/-- The CPU agent's turn: it has a step only while Running (R110); otherwise its turn changes nothing. -/
def cpuTurn (s : State) : Result := if s.engine = .running then cpuStep s else .next s

/-- One turn of one agent (R250). -/
def takeTurn (t : Turn) (s : State) : Result :=
  match t with
  | .cpu => cpuTurn s
  | .delayTick => .next (delayTick s)
  | .soundTick => .next (soundTick s)
  | .host a => .next (hostStep a s)

/-- The turn that is due at the end of a round: the four agents in rotation, so that none is passed over for ever
(R251). The host's is a snapshot, the one action of it that every state accepts and that changes nothing (R266). -/
def dueTurn (round : Nat) : Turn :=
  match round % 4 with
  | 0 => .cpu
  | 1 => .delayTick
  | 2 => .soundTick
  | _ => .host .snapshot

/-- The next turn of the open order: as many free turns as the round has, then the due one (log entry 14). -/
def openTurn (o : Order) : Turn :=
  if o.used < Config.freeGap o.round then Config.freeTurn o.round o.used else dueTurn o.round

/-- The open order after that turn. -/
def Order.next (o : Order) : Order :=
  if o.used < Config.freeGap o.round then { o with used := o.used + 1 } else { round := o.round + 1, used := 0 }

/-- Whose turn is next: the first of the schedule, or the open order's where no turn is settled (log entries 2, 14). -/
def nextTurn (s : State) : Turn :=
  match s.schedule with
  | [] => openTurn s.order
  | t :: _ => t

/-- The open order once the next turn is taken: a settled turn leaves it as it is. -/
def orderAfter (settled : List Turn) (o : Order) : Order :=
  match settled with
  | [] => o.next
  | _ :: _ => o

/-- The state with the turn that is being taken removed from what is to come. -/
def popTurn (s : State) : State :=
  { s with schedule := s.schedule.tail, order := orderAfter s.schedule s.order }

/-- One step of the machine: the next turn is taken. -/
def stepBody (s : State) : Result := takeTurn (nextTurn s) (popTurn s)

/-- The address at which an instruction is placed so that the next CPU step fetches it: PC, or `USER_START` where no
word lies at PC (R55). -/
def fetchAddress (s : State) : Nat := if memSize ≤ s.pc.toNat + 1 then s.cfg.userStart else s.pc.toNat

/-- The schedule with the CPU's turn next. -/
def cpuNext (settled : List Turn) : List Turn :=
  match settled with
  | .cpu :: rest => .cpu :: rest
  | rest => .cpu :: rest

/-- The state whose next step fetches `w`: the word is in memory at the fetch address, the engine is Running as after
`load` and `run` (R260, R261), and the next turn is the CPU's. -/
def readyToFetch (s : State) (w : Word) : State :=
  { placeWord s (fetchAddress s) w with
    pc := BitVec.ofNat 16 (fetchAddress s)
    engine := .running
    schedule := cpuNext s.schedule }

end Sys2Proof.Machine
end

