-- ==== Sys2Proof/Machine/Step.lean ====
section
/-! DEFINITION. The machine's step, and placing the next instruction from outside. -/

namespace Sys2Proof.Machine

/-- One atomic step of the block (R250): the next turn, in a configuration the rules are written for. -/
def step (s : State) : Host.Outcome State Fault Refusal :=
  if s.cfg.valid then stepBody s else .fault .configurationNotAdmitted

/-- `s` with the opcode-table word `w` placed so that the very next step fetches and runs it (log entry 5). -/
def State.withFetchWord (s : State) (nbits w : Nat) : State := readyToFetch s (tableWord nbits w)

end Sys2Proof.Machine
end

