-- ==== Sys2Proof/Safety.lean ====
section
/-! DEFINITION. What counts as a good state and a good run, in the terms that claims use: the frame of a step, the
invariant, which agents have a step, and weak fairness. -/

namespace Sys2Proof.Machine

/-- The parts of State that a frame can name as changed. The configuration is not among them: nothing changes it. -/
inductive Part where
  | regs
  | i
  | pc
  | stack
  | dt
  | st
  | display
  | mem
  | key
  | engine
  | fault
  | events
  | draws
  | schedule
  | order
  deriving DecidableEq, Repr

/-- `t` agrees with `s` on every part outside `changed`: registers register by register, memory byte by byte. -/
def State.sameOutside (changed : List Part) (s t : State) : Prop :=
  t.cfg = s.cfg ∧
    (.regs ∉ changed → ∀ r, t.readV r = s.readV r) ∧
    (.i ∉ changed → t.i = s.i) ∧
    (.pc ∉ changed → t.pc = s.pc) ∧
    (.stack ∉ changed → t.stack = s.stack) ∧
    (.dt ∉ changed → t.dt = s.dt) ∧
    (.st ∉ changed → t.st = s.st) ∧
    (.display ∉ changed → t.display = s.display) ∧
    (.mem ∉ changed → ∀ a, t.byteAt a = s.byteAt a) ∧
    (.key ∉ changed → t.key = s.key) ∧
    (.engine ∉ changed → t.engine = s.engine) ∧
    (.fault ∉ changed → t.fault = s.fault) ∧
    (.events ∉ changed → t.events = s.events) ∧
    (.draws ∉ changed → t.draws = s.draws) ∧
    (.schedule ∉ changed → t.schedule = s.schedule) ∧
    (.order ∉ changed → t.order = s.order)

/-- Every byte outside the `n` bytes from `a` on reads in `t` as in `s`. -/
def State.sameBytesOutside (a n : Nat) (s t : State) : Prop :=
  ∀ b, (b < a ∨ a + n ≤ b) → t.byteAt b = s.byteAt b

/-- `t` is `s` after fault entry with this kind and `info` (R241): record, Halted, one notification, PC unchanged. -/
def State.faultedWith (kind : FaultKind) (info : FaultInfo) (s t : State) : Prop :=
  t.fault = some { kind := kind, code := faultCode kind, pc := s.pc, info := info } ∧
    t.engine = .halted ∧
    t.events = s.events ++ [.faultOccurred { kind := kind, code := faultCode kind, pc := s.pc, info := info }] ∧
    t.pc = s.pc

/-- `t` has `b` in register `x`, and every other register as in `s`. -/
def State.wroteReg (x : Reg) (b : Byte) (s t : State) : Prop :=
  t.readV x = b ∧ ∀ r, r ≠ x → t.readV r = s.readV r

/-- `t` has the flag (1 or 0) in VF, the result `b` in register `x` unless `x` is VF itself (then the flag is there and
the result is lost, R150), and every other register as in `s`. -/
def State.wroteFlagged (x : Reg) (b : Byte) (f : Prop) (s t : State) : Prop :=
  (f → t.readV vf = 1#8) ∧ (¬ f → t.readV vf = 0#8) ∧ (x ≠ vf → t.readV x = b) ∧
    ∀ r, r ≠ x → r ≠ vf → t.readV r = s.readV r

/-- The instructions that R23 lets change VF: the flag writers, and those that name VF as their destination X. -/
def mayWriteVf : Instr → Prop
  | .addReg _ _ | .sub _ _ | .subn _ _ | .shr _ _ | .shl _ _ | .drw _ _ _ => True
  | .ldImm x _ | .addImm x _ | .ldReg x _ | .orReg x _ | .andReg x _ | .xorReg x _ | .rnd x _ | .ldVxDt x | .ldVxK x
  | .ldVxMem x => x = vf
  | .cls | .ret | .jp _ | .call _ | .jpV0 _ | .seImm _ _ | .sneImm _ _ | .seReg _ _ | .sneReg _ _ | .skp _ | .sknp _
  | .ldI _ | .ldDtVx _ | .ldStVx _ | .addI _ | .ldF _ | .ldB _ | .ldMemVx _ => False

/-- What holds of every state of the block: the configuration is one of the spec's, memory is canonical, the stack is
bounded (R29), the grid has every pixel (R35), and a fault record stands only while Halted, names the instruction at PC
and has been notified (R241, R242). -/
structure State.Inv (s : State) : Prop where
  cfg_valid : s.cfg.valid = true
  mem_wf : Memory.wf s.cfg s.mem
  stack_bounded : s.stack.length ≤ s.cfg.stackDepth
  display_full : s.display.length = s.cfg.displayW * s.cfg.displayH
  fault_halts : ∀ f, s.fault = some f →
    s.engine = .halted ∧ f.code = faultCode f.kind ∧ f.pc = s.pc ∧ .faultOccurred f ∈ s.events

/-- The bound of R28 on PC, with the bound on the return addresses that it rests on. -/
def State.PcBounded (s : State) : Prop := s.pc.toNat ≤ 0x10FE ∧ ∀ a ∈ s.stack, a.toNat ≤ 0x1000

/-- The control transfers of R114, which write PC themselves. -/
def isControlTransfer : Instr → Bool
  | .ret | .jp _ | .call _ | .jpV0 _ | .seImm _ _ | .sneImm _ _ | .seReg _ _ | .sneReg _ _ | .skp _ | .sknp _ => true
  | .cls | .ldImm _ _ | .addImm _ _ | .ldReg _ _ | .orReg _ _ | .andReg _ _ | .xorReg _ _ | .addReg _ _ | .sub _ _
  | .shr _ _ | .subn _ _ | .shl _ _ | .ldI _ | .rnd _ _ | .drw _ _ _ | .ldVxDt _ | .ldVxK _ | .ldDtVx _ | .ldStVx _
  | .addI _ | .ldF _ | .ldB _ | .ldMemVx _ | .ldVxMem _ => false

/-- The CPU agent is held: it is Running, and PC addresses an FX0A word while no key is pressed (R234). -/
def cpuHeld (s : State) : Prop :=
  s.engine = .running ∧ s.key = none ∧ ∃ w x, fetch s = .ok w ∧ decodeWord w = .ok (.ldVxK x)

/-- Whether a turn is a step of its agent in state `s` (R110, R234, R252, R260 to R266). A turn that is not changes
nothing. -/
def turnEnabled (t : Turn) (s : State) : Prop :=
  match t with
  | .cpu => s.engine = .running ∧ ¬ cpuHeld s
  | .delayTick => s.engine = .running
  | .soundTick => s.engine = .running
  | .host (.load _) => s.engine = .idle
  | .host (.run _ _) => s.engine = .idle
  | .host .cancel => s.engine = .running
  | .host .reset => s.engine ≠ .running
  | .host (.writeKey _) => True
  | .host .snapshot => True

/-- The four agents (R250). -/
inductive Agent where
  | cpu
  | delayTick
  | soundTick
  | host
  deriving DecidableEq, Repr

/-- Whose turn it is. -/
def agentOf : Turn → Agent
  | .cpu => .cpu
  | .delayTick => .delayTick
  | .soundTick => .soundTick
  | .host _ => .host

/-- The agent has a step in state `s`: some turn of it is enabled (R251). -/
def agentEnabled (a : Agent) (s : State) : Prop := ∃ t, agentOf t = a ∧ turnEnabled t s

/-- The agent steps from state `s`: the next turn is its own, and is a step. -/
def agentSteps (a : Agent) (s : State) : Prop := agentOf (nextTurn s) = a ∧ turnEnabled (nextTurn s) s

/-- An infinite run of the machine: each state is the step of the one before. -/
def IsRun (run : Nat → State) : Prop := ∀ n, step (run n) = .next (run (n + 1))

/-- Weak fairness (R251): an agent that stays enabled from some point on steps at or after that point. -/
def WeaklyFair (run : Nat → State) : Prop :=
  ∀ a n, (∀ m ≥ n, agentEnabled a (run m)) → ∃ m ≥ n, agentSteps a (run m)

/-- Whether a sprite of `rows` at column `x`, row `y` has a set bit that lands on pixel (`px`, `py`), each column and
each row wrapped by itself (R181, R185). -/
def spriteCovers (c : Config) (x y : Nat) (rows : List Byte) (px py : Nat) : Prop :=
  ∃ r, ∃ row, rows[r]? = some row ∧ ∃ j < 8, spriteBit row j = true ∧
    (x + j) % c.displayW = px ∧ (y + r) % c.displayH = py

end Sys2Proof.Machine
end

