-- ==== Sys2Proof/Certificates/Slice0/Obligations.lean ====
section
/-! DEFINITION. The statements for the provers, in the order of the spec's files: encoding, the step, the instruction
families, the timers, the host's ports, and what holds of the whole machine. -/

open Sys2Proof Sys2Proof.Machine

/-! ### Encoding (30_encoding.md) -/

/-- R81, R85: no bit of an encoding is dropped: decoding the word of a well-formed instruction gives it back. -/
def Obligations.DecodeOfEncode : Prop :=
  ∀ i : Instr, i.wellFormed = true → decodeWord (encode i) = .ok i

/-- R85: every word that decodes is the word of one instruction alone, and decodes to a well-formed one. -/
def Obligations.EncodeOfDecode : Prop :=
  ∀ (w : Word) (i : Instr), decodeWord w = .ok i → i.wellFormed = true ∧ encode i = w

/-- R80: every instruction is exactly one big-endian word: decoding takes two bytes, the first of them bits 15..8, and
leaves the rest. -/
def Obligations.DecodeTakesTwoBytes : Prop :=
  ∀ (bytes rest : List Byte) (i : Instr),
    decode bytes = .ok (i, rest) ↔
      ∃ hi lo w, bytes = hi :: lo :: rest ∧ w.toNat = 256 * hi.toNat + lo.toNat ∧ decodeWord w = .ok i

/-- R86: the illegal words are exactly those of R86's table, and executing one faults before any state changes, PC not
advanced. -/
def Obligations.IllegalWordsFault : Prop :=
  (∀ w : Word, decodeWord w = .error (.illegal w) ↔
    (w.toNat / 4096 = 0x0 ∧ w.toNat ≠ 0x00E0 ∧ w.toNat ≠ 0x00EE) ∨
    (w.toNat / 4096 = 0x5 ∧ w.toNat % 16 ≠ 0) ∨
    (w.toNat / 4096 = 0x8 ∧ w.toNat % 16 ∈ [0x8, 0x9, 0xA, 0xB, 0xC, 0xD, 0xF]) ∨
    (w.toNat / 4096 = 0x9 ∧ w.toNat % 16 ≠ 0) ∨
    (w.toNat / 4096 = 0xE ∧ w.toNat % 256 ∉ [0x9E, 0xA1]) ∨
    (w.toNat / 4096 = 0xF ∧ w.toNat % 256 ∉ [0x07, 0x0A, 0x15, 0x18, 0x1E, 0x29, 0x33, 0x55, 0x65])) ∧
  (∀ (s : State) (w : Word), s.engine = .running → fetch s = .ok w → decodeWord w = .error (.illegal w) →
    ∃ t, takeTurn .cpu s = .next t ∧ State.faultedWith .malformedInstruction (.word w) s t ∧
      State.sameOutside [.fault, .engine, .events] s t)

/-- R85: a few words written out, one of each format. -/
def Obligations.WordsOfTheOpcodeMap : Prop :=
  decodeWord 0x00EE#16 = .ok .ret ∧
    decodeWord 0x2ABC#16 = .ok (.call 0xABC#12) ∧
    decodeWord 0x3F42#16 = .ok (.seImm 15 0x42#8) ∧
    decodeWord 0x9120#16 = .ok (.sneReg 1 2) ∧
    decodeWord 0x84FE#16 = .ok (.shl 4 15) ∧
    decodeWord 0xD12F#16 = .ok (.drw 1 2 15) ∧
    decodeWord 0xEAA1#16 = .ok (.sknp 10) ∧
    decodeWord 0xF333#16 = .ok (.ldB 3)

/-! ### The step (40_engine_cycle.md) -/

/-- R111, R112, R116: when it is the CPU's turn, the engine is Running and the two bytes at PC, the first of them bits
15..8, decode to `i`, the step is `exec i` in the state that has lost that turn. -/
def Obligations.StepRunsDecodedInstruction : Prop :=
  ∀ (s : State) (w : Word) (i : Instr), s.cfg.valid = true → s.engine = .running → nextTurn s = .cpu →
    s.pc.toNat + 1 < 4096 → w.toNat = 256 * (s.byteAt s.pc.toNat).toNat + (s.byteAt (s.pc.toNat + 1)).toNat →
    decodeWord w = .ok i → step s = exec i (popTurn s)

/-- R111: a fetch at or above 0x0FFF faults; it checks nothing else: below that, every address and alignment fetches. -/
def Obligations.FetchFaultsOnlyPastMemory : Prop :=
  (∀ s : State, s.engine = .running → 0x0FFF ≤ s.pc.toNat →
    ∃ t, takeTurn .cpu s = .next t ∧ State.faultedWith .malformedWordRead (.address s.pc.toNat) s t ∧
      State.sameOutside [.fault, .engine, .events] s t) ∧
  (∀ s : State, s.pc.toNat < 0x0FFF →
    ∃ w : Word, fetch s = .ok w ∧
      w.toNat = 256 * (s.byteAt s.pc.toNat).toNat + (s.byteAt (s.pc.toNat + 1)).toNat)

/-- One step of the machine is one turn of one agent (R250), in a configuration the rules are written for; in another the
model stops (log entry 3). The turn is the first of the settled ones (log entry 2), or, where none is settled, the open
order's, whose rounds end with the turn that is due (log entry 14). -/
def Obligations.StepTakesTheNextTurn : Prop :=
  ∀ s : State, (s.cfg.valid = true → step s = takeTurn (nextTurn s) (popTurn s)) ∧
    (s.cfg.valid = false → step s = .fault .configurationNotAdmitted) ∧
    State.sameOutside [.schedule, .order] s (popTurn s) ∧
    (∀ t rest, s.schedule = t :: rest →
      nextTurn s = t ∧ (popTurn s).schedule = rest ∧ (popTurn s).order = s.order) ∧
    (s.schedule = [] → s.order.used < Config.freeGap s.order.round →
      nextTurn s = Config.freeTurn s.order.round s.order.used ∧ (popTurn s).schedule = [] ∧
        (popTurn s).order = { round := s.order.round, used := s.order.used + 1 }) ∧
    (s.schedule = [] → Config.freeGap s.order.round ≤ s.order.used →
      nextTurn s = dueTurn s.order.round ∧ (popTurn s).schedule = [] ∧
        (popTurn s).order = { round := s.order.round + 1, used := 0 })

/-- R251's liveness assumption, as the open order carries it (log entry 14): in every infinite run each of the four agents
has a turn again and again, so that an agent that stays enabled eventually steps. -/
def Obligations.EveryRunIsWeaklyFair : Prop :=
  ∀ run : Nat → State, IsRun run →
    (∀ a n, ∃ m ≥ n, agentOf (nextTurn (run m)) = a) ∧ WeaklyFair run

/-- A turn whose agent has no step in state `s` changes nothing (the model's reading of a turn that is no step: log
entries 2 and 4): the CPU's while not Running (R110) or held at FX0A (R234), a tick's while not Running (R252), and a host
action in a state that does not accept it (R260 to R263). -/
def Obligations.DisabledTurnsPass : Prop :=
  ∀ (t : Turn) (s : State), ¬ turnEnabled t s → takeTurn t s = .next s

/-- R114: every instruction that is no control transfer, completes without a fault and is not held advances PC by 2. -/
def Obligations.AdvanceByTwo : Prop :=
  ∀ (i : Instr) (s t : State), exec i s = .next t → s.engine = .running → t.engine = .running →
    isControlTransfer i = false → (∀ x, i = .ldVxK x → s.key ≠ none) → t.pc = s.pc + 2#16

/-- Every instruction answers a next state from every state: a fault is a fault entry, never a stop of the model. An
instruction changes neither the configuration, nor the input latch (R36), nor the order of the turns. Two of the next
states are the model's choice: FX0A with no key, where R234 gives the CPU no step (log entry 4), and a DXYN term of 16
rows or more, which no word encodes (log entry 13); the schedule and the order are the model's own fields (log entries 2
and 14). -/
def Obligations.EveryInstructionAnswersNext : Prop :=
  ∀ (i : Instr) (s : State), ∃ t, exec i s = .next t ∧ t.cfg = s.cfg ∧ t.key = s.key ∧ t.schedule = s.schedule ∧
    t.order = s.order

/-! ### Control transfer (41_control_transfer.md) -/

/-- R132. -/
def Obligations.JumpSetsPc : Prop :=
  ∀ (nnn : Addr12) (s : State), decodeWord (formatA 0x1#4 nnn) = .ok (.jp nnn) ∧
    ∃ t, exec (.jp nnn) s = .next t ∧ t.pc.toNat = nnn.toNat ∧ State.sameOutside [.pc] s t

/-- R134: the sum is not masked to 12 bits. -/
def Obligations.JumpOffsetAddsV0 : Prop :=
  ∀ (nnn : Addr12) (s : State), decodeWord (formatA 0xB#4 nnn) = .ok (.jpV0 nnn) ∧
    ∃ t, exec (.jpV0 nnn) s = .next t ∧ t.pc.toNat = nnn.toNat + (s.readV 0).toNat ∧ State.sameOutside [.pc] s t

/-- R133: the call, and the call on a full stack, whose record has no info (R240; R29 and R133 write PC there) and which
the model faults from STACK_DEPTH entries on (log entry 6). -/
def Obligations.CallPushesReturnAddress : Prop :=
  ∀ (nnn : Addr12) (s : State), decodeWord (formatA 0x2#4 nnn) = .ok (.call nnn) ∧
    (s.stack.length < s.cfg.stackDepth →
      ∃ t, exec (.call nnn) s = .next t ∧ t.stack = s.stack ++ [s.pc + 2#16] ∧ t.pc.toNat = nnn.toNat ∧
        State.sameOutside [.pc, .stack] s t) ∧
    (s.cfg.stackDepth ≤ s.stack.length →
      ∃ t, exec (.call nnn) s = .next t ∧ State.faultedWith .stackOverflow .none s t ∧
        State.sameOutside [.fault, .engine, .events] s t)

/-- R131: the return, and the return on an empty stack, whose record has no info (R240; R29 and R131 write PC there: log
entry 6). -/
def Obligations.ReturnPopsStack : Prop :=
  decodeWord 0x00EE#16 = .ok .ret ∧
  (∀ (s : State) (l : List Word) (a : Word), s.stack = l ++ [a] →
    ∃ t, exec .ret s = .next t ∧ t.pc = a ∧ t.stack = l ∧ State.sameOutside [.pc, .stack] s t) ∧
  (∀ s : State, s.stack = [] →
    ∃ t, exec .ret s = .next t ∧ State.faultedWith .stackUnderflow .none s t ∧
      State.sameOutside [.fault, .engine, .events] s t)

/-- R131, R133: a return undoes a call: the stack is as before, and PC is at the instruction after the call. -/
def Obligations.ReturnAfterCall : Prop :=
  ∀ (nnn : Addr12) (s : State), s.stack.length < s.cfg.stackDepth →
    ∃ t u, exec (.call nnn) s = .next t ∧ exec .ret t = .next u ∧ u.pc = s.pc + 2#16 ∧ State.sameOutside [.pc] s u

/-- R135, R136. -/
def Obligations.SkipsOnImmediate : Prop :=
  ∀ (x : Reg) (nn : Byte) (s : State),
    (decodeWord (formatXNN 0x3#4 x nn) = .ok (.seImm x nn) ∧
      ∃ t, exec (.seImm x nn) s = .next t ∧ State.sameOutside [.pc] s t ∧
        (s.readV x = nn → t.pc = s.pc + 4#16) ∧ (s.readV x ≠ nn → t.pc = s.pc + 2#16)) ∧
    (decodeWord (formatXNN 0x4#4 x nn) = .ok (.sneImm x nn) ∧
      ∃ t, exec (.sneImm x nn) s = .next t ∧ State.sameOutside [.pc] s t ∧
        (s.readV x ≠ nn → t.pc = s.pc + 4#16) ∧ (s.readV x = nn → t.pc = s.pc + 2#16))

/-- R137, R138. -/
def Obligations.SkipsOnRegisters : Prop :=
  ∀ (x y : Reg) (s : State),
    (decodeWord (formatXYN 0x5#4 x y 0#4) = .ok (.seReg x y) ∧
      ∃ t, exec (.seReg x y) s = .next t ∧ State.sameOutside [.pc] s t ∧
        (s.readV x = s.readV y → t.pc = s.pc + 4#16) ∧ (s.readV x ≠ s.readV y → t.pc = s.pc + 2#16)) ∧
    (decodeWord (formatXYN 0x9#4 x y 0#4) = .ok (.sneReg x y) ∧
      ∃ t, exec (.sneReg x y) s = .next t ∧ State.sameOutside [.pc] s t ∧
        (s.readV x ≠ s.readV y → t.pc = s.pc + 4#16) ∧ (s.readV x = s.readV y → t.pc = s.pc + 2#16)) ∧
    (∀ n : Nibble, n ≠ 0 → decodeWord (formatXYN 0x5#4 x y n) = .error (.illegal (formatXYN 0x5#4 x y n)) ∧
      decodeWord (formatXYN 0x9#4 x y n) = .error (.illegal (formatXYN 0x9#4 x y n)))

/-! ### Register loads, arithmetic and logic (42_arithmetic.md) -/

/-- R151, R153. -/
def Obligations.LoadsWriteOneRegister : Prop :=
  ∀ (x y : Reg) (nn : Byte) (s : State),
    (decodeWord (formatXNN 0x6#4 x nn) = .ok (.ldImm x nn) ∧
      ∃ t, exec (.ldImm x nn) s = .next t ∧ State.wroteReg x nn s t ∧ t.pc = s.pc + 2#16 ∧
        State.sameOutside [.regs, .pc] s t) ∧
    (decodeWord (formatXYN 0x8#4 x y 0x0#4) = .ok (.ldReg x y) ∧
      ∃ t, exec (.ldReg x y) s = .next t ∧ State.wroteReg x (s.readV y) s t ∧ t.pc = s.pc + 2#16 ∧
        State.sameOutside [.regs, .pc] s t)

/-- R152: the sum modulo 2^8, and no flag: VF, like every register but VX, is unchanged. -/
def Obligations.AddImmediateSetsNoFlag : Prop :=
  ∀ (x : Reg) (nn : Byte) (s : State), decodeWord (formatXNN 0x7#4 x nn) = .ok (.addImm x nn) ∧
    ∃ t, exec (.addImm x nn) s = .next t ∧ (t.readV x).toNat = ((s.readV x).toNat + nn.toNat) % 256 ∧
      (∀ r, r ≠ x → t.readV r = s.readV r) ∧ t.pc = s.pc + 2#16 ∧ State.sameOutside [.regs, .pc] s t

/-- R154, R155, R156: bit by bit, and no flag. -/
def Obligations.LogicSetsNoFlag : Prop :=
  ∀ (x y : Reg) (s : State),
    (decodeWord (formatXYN 0x8#4 x y 0x1#4) = .ok (.orReg x y) ∧
      ∃ t, exec (.orReg x y) s = .next t ∧ t.pc = s.pc + 2#16 ∧ State.sameOutside [.regs, .pc] s t ∧
        (∀ k, (t.readV x).getLsbD k = ((s.readV x).getLsbD k || (s.readV y).getLsbD k)) ∧
        ∀ r, r ≠ x → t.readV r = s.readV r) ∧
    (decodeWord (formatXYN 0x8#4 x y 0x2#4) = .ok (.andReg x y) ∧
      ∃ t, exec (.andReg x y) s = .next t ∧ t.pc = s.pc + 2#16 ∧ State.sameOutside [.regs, .pc] s t ∧
        (∀ k, (t.readV x).getLsbD k = ((s.readV x).getLsbD k && (s.readV y).getLsbD k)) ∧
        ∀ r, r ≠ x → t.readV r = s.readV r) ∧
    (decodeWord (formatXYN 0x8#4 x y 0x3#4) = .ok (.xorReg x y) ∧
      ∃ t, exec (.xorReg x y) s = .next t ∧ t.pc = s.pc + 2#16 ∧ State.sameOutside [.regs, .pc] s t ∧
        (∀ k, (t.readV x).getLsbD k = ((s.readV x).getLsbD k ^^ (s.readV y).getLsbD k)) ∧
        ∀ r, r ≠ x → t.readV r = s.readV r)

/-- R157, R150: the sum modulo 2^8 and the carry, VF written last. -/
def Obligations.AddSetsCarry : Prop :=
  ∀ (x y : Reg) (s : State), decodeWord (formatXYN 0x8#4 x y 0x4#4) = .ok (.addReg x y) ∧
    ∃ t r, exec (.addReg x y) s = .next t ∧
      r.toNat = ((s.readV x).toNat + (s.readV y).toNat) % 256 ∧
      State.wroteFlagged x r ((s.readV x).toNat + (s.readV y).toNat > 0xFF) s t ∧
      t.pc = s.pc + 2#16 ∧ State.sameOutside [.regs, .pc] s t

/-- R158, R160, R150: the difference modulo 2^8 and NOT borrow, VF written last. -/
def Obligations.SubtractSetsNotBorrow : Prop :=
  ∀ (x y : Reg) (s : State),
    (decodeWord (formatXYN 0x8#4 x y 0x5#4) = .ok (.sub x y) ∧
      ∃ t r, exec (.sub x y) s = .next t ∧
        (r.toNat : Int) = ((s.readV x).toNat - (s.readV y).toNat : Int) % 256 ∧
        State.wroteFlagged x r ((s.readV x).toNat ≥ (s.readV y).toNat) s t ∧
        t.pc = s.pc + 2#16 ∧ State.sameOutside [.regs, .pc] s t) ∧
    (decodeWord (formatXYN 0x8#4 x y 0x7#4) = .ok (.subn x y) ∧
      ∃ t r, exec (.subn x y) s = .next t ∧
        (r.toNat : Int) = ((s.readV y).toNat - (s.readV x).toNat : Int) % 256 ∧
        State.wroteFlagged x r ((s.readV y).toNat ≥ (s.readV x).toNat) s t ∧
        t.pc = s.pc + 2#16 ∧ State.sameOutside [.regs, .pc] s t)

/-- R159, R161, R150: VX shifted in place by one, whatever the Y field, and the bit shifted out in VF, written last. -/
def Obligations.ShiftsByOneInPlace : Prop :=
  ∀ (x y : Reg) (s : State),
    (decodeWord (formatXYN 0x8#4 x y 0x6#4) = .ok (.shr x y) ∧
      ∃ t r, exec (.shr x y) s = .next t ∧ r.toNat = (s.readV x).toNat / 2 ∧
        State.wroteFlagged x r ((s.readV x).getLsbD 0 = true) s t ∧
        t.pc = s.pc + 2#16 ∧ State.sameOutside [.regs, .pc] s t) ∧
    (decodeWord (formatXYN 0x8#4 x y 0xE#4) = .ok (.shl x y) ∧
      ∃ t r, exec (.shl x y) s = .next t ∧ r.toNat = 2 * (s.readV x).toNat % 256 ∧
        State.wroteFlagged x r ((s.readV x).getLsbD 7 = true) s t ∧
        t.pc = s.pc + 2#16 ∧ State.sameOutside [.regs, .pc] s t)

/-- R165: the drawn byte, masked by NN. The byte is the model's free value (R166, log entry 1): it is the next one, and
nothing says what it is. -/
def Obligations.RandomByteIsMasked : Prop :=
  ∀ (x : Reg) (nn : Byte) (s : State), decodeWord (formatXNN 0xC#4 x nn) = .ok (.rnd x nn) ∧
    ∃ t, exec (.rnd x nn) s = .next t ∧ State.wroteReg x (Config.freeByte s.draws &&& nn) s t ∧
      t.draws = s.draws + 1 ∧ t.pc = s.pc + 2#16 ∧ State.sameOutside [.regs, .pc, .draws] s t

/-- R23: no other instruction than the flag writers changes VF, unless it names VF as its destination. -/
def Obligations.OtherInstructionsKeepVf : Prop :=
  ∀ (i : Instr) (s t : State), exec i s = .next t → ¬ mayWriteVf i → t.readV vf = s.readV vf

/-! ### Display (43_display.md) -/

/-- R182, R183. -/
def Obligations.ClearTurnsEveryPixelOff : Prop :=
  decodeWord 0x00E0#16 = .ok .cls ∧
    ∀ s : State, ∃ t, exec .cls s = .next t ∧ (∀ x y, t.pixel x y = false) ∧ t.dt.latch = true ∧
      t.dt.counter = s.dt.counter ∧ t.pc = s.pc + 2#16 ∧ State.sameOutside [.display, .dt, .pc] s t

/-- R180, R181, R184, R185, R186: a draw of `n` rows from `I`, on every full grid of a valid configuration (the valid
configurations are log entry 3's): each pixel becomes the exclusive or of what it was and whether the sprite covers it;
VF says whether a covered pixel was set; the coordinates are VX and VY after the reset of VF; and the rows that would
lie beyond memory fault with VF already reset. -/
def Obligations.DrawXorsSprite : Prop :=
  ∀ (x y : Reg) (n : Nat) (s : State), n < 16 → s.cfg.valid = true →
    s.display.length = s.cfg.displayW * s.cfg.displayH →
    decodeWord (formatXYN 0xD#4 x y (BitVec.ofNat 4 n)) = .ok (.drw x y n) ∧
    (n = 0 ∨ s.i.toNat + n ≤ 0x1000 →
      ∃ t : State, ∃ col row : Nat, ∃ covers : Nat → Nat → Prop, exec (.drw x y n) s = .next t ∧
        (col = if x = vf then 0 else (s.readV x).toNat) ∧
        (row = if y = vf then 0 else (s.readV y).toNat) ∧
        (∀ px py, covers px py ↔ ∃ r < n, ∃ c < 8, (s.byteAt (s.i.toNat + r)).getLsbD (7 - c) = true ∧
          px = (col + c) % s.cfg.displayW ∧ py = (row + r) % s.cfg.displayH) ∧
        (∀ px < s.cfg.displayW, ∀ py < s.cfg.displayH,
          (t.pixel px py = true ↔ ¬ (s.pixel px py = true ↔ covers px py))) ∧
        ((∃ px py, covers px py ∧ s.pixel px py = true) → t.readV vf = 1#8) ∧
        (¬ (∃ px py, covers px py ∧ s.pixel px py = true) → t.readV vf = 0#8) ∧
        (∀ r, r ≠ vf → t.readV r = s.readV r) ∧
        t.dt.latch = true ∧ t.dt.counter = s.dt.counter ∧ t.pc = s.pc + 2#16 ∧
        State.sameOutside [.regs, .display, .dt, .pc] s t) ∧
    (n ≠ 0 → 0x1000 < s.i.toNat + n →
      ∃ t, exec (.drw x y n) s = .next t ∧
        State.faultedWith .outOfRange (.address (max s.i.toNat 0x1000)) s t ∧
        State.wroteReg vf 0#8 s t ∧ State.sameOutside [.regs, .fault, .engine, .events] s t)

/-- R181, R184, R186 (the source's XOR involution): drawing the same sprite twice restores every pixel; the second draw
collides exactly where the first turned a pixel on, which on a clear display is whenever the sprite has a set bit. -/
def Obligations.DrawTwiceRestoresDisplay : Prop :=
  ∀ (x y : Reg) (n : Nat) (s : State), n < 16 → s.cfg.valid = true →
    s.display.length = s.cfg.displayW * s.cfg.displayH → (n = 0 ∨ s.i.toNat + n ≤ 0x1000) →
    ∃ t u, exec (.drw x y n) s = .next t ∧ exec (.drw x y n) t = .next u ∧
      (∀ px py, u.pixel px py = s.pixel px py) ∧
      (u.readV vf = 1#8 ↔ ∃ px py, s.pixel px py = false ∧ t.pixel px py = true) ∧
      ((∀ px py, s.pixel px py = false) →
        (u.readV vf = 1#8 ↔ ∃ r < n, s.byteAt (s.i.toNat + r) ≠ 0#8)) ∧
      (u.readV vf = 1#8 ∨ u.readV vf = 0#8)

/-! ### Timers (44_timer_instructions.md, 60_exceptions.md) -/

/-- R201, R202, R203, R204: FX15 changes no latch, and FX18 sets the sound latch on a nonzero value and leaves it on
zero. -/
def Obligations.TimerInstructions : Prop :=
  ∀ (x : Reg) (s : State),
    (decodeWord (formatXNN 0xF#4 x 0x07#8) = .ok (.ldVxDt x) ∧
      ∃ t, exec (.ldVxDt x) s = .next t ∧ State.wroteReg x s.dt.counter s t ∧ t.pc = s.pc + 2#16 ∧
        State.sameOutside [.regs, .pc] s t) ∧
    (decodeWord (formatXNN 0xF#4 x 0x15#8) = .ok (.ldDtVx x) ∧
      ∃ t, exec (.ldDtVx x) s = .next t ∧ t.dt.counter = s.readV x ∧ t.dt.latch = s.dt.latch ∧
        t.pc = s.pc + 2#16 ∧ State.sameOutside [.dt, .pc] s t) ∧
    (decodeWord (formatXNN 0xF#4 x 0x18#8) = .ok (.ldStVx x) ∧
      ∃ t, exec (.ldStVx x) s = .next t ∧ t.st.counter = s.readV x ∧
        (s.readV x ≠ 0#8 → t.st.latch = true) ∧ (s.readV x = 0#8 → t.st.latch = s.st.latch) ∧
        t.pc = s.pc + 2#16 ∧ State.sameOutside [.st, .pc] s t)

/-- R255, R257: the delay tick of a Running engine. -/
def Obligations.DelayTickStep : Prop :=
  ∀ s : State, s.engine = .running →
    ∃ t, takeTurn .delayTick s = .next t ∧ t.dt.counter.toNat = s.dt.counter.toNat - 1 ∧ t.dt.latch = false ∧
      (s.dt.latch = true → t.events = s.events ++ [.displayUpdated]) ∧
      (s.dt.latch = false → t.events = s.events) ∧
      State.sameOutside [.dt, .events] s t

/-- R256, R257: the sound tick of a Running engine. -/
def Obligations.SoundTickStep : Prop :=
  ∀ s : State, s.engine = .running →
    ∃ t, takeTurn .soundTick s = .next t ∧ t.st.counter.toNat = s.st.counter.toNat - 1 ∧
      (t.st.latch = true ↔ s.st.latch = true ∧ 1 < s.st.counter.toNat) ∧
      (s.st.latch = true ∧ s.st.counter ≠ 0#8 →
        t.events = s.events ++ [.toneRequest { ticks := s.st.counter.toNat, hz := s.cfg.timerHz }]) ∧
      (¬ (s.st.latch = true ∧ s.st.counter ≠ 0#8) → t.events = s.events) ∧
      State.sameOutside [.st, .events] s t

/-- R32, R255: any number of consecutive delay ticks: the counter goes down by one each and stays at zero, and the
display notification fires once, at the first, if the latch was set. -/
def Obligations.DelayTimerCountsDown : Prop :=
  ∀ (n : Nat) (s : State) (rest : List Turn), s.cfg.valid = true → s.engine = .running →
    s.schedule = List.replicate n .delayTick ++ rest →
    ∃ t, Sys2Proof.core.run n s = .next t ∧ t.dt.counter.toNat = s.dt.counter.toNat - n ∧
      (t.dt.latch = true ↔ s.dt.latch = true ∧ n = 0) ∧
      (t.events = if s.dt.latch = true ∧ n ≠ 0 then s.events ++ [.displayUpdated] else s.events) ∧
      t.schedule = rest ∧ State.sameOutside [.dt, .events, .schedule] s t

/-- R256: with the latch set, the sound timer emits exactly one tone request per active tick while the counter is above
zero, of falling durations, and none after; any number of further ticks changes nothing. -/
def Obligations.SoundTimerEmitsOneTonePerActiveTick : Prop :=
  ∀ (n : Nat) (s : State) (rest : List Turn), s.cfg.valid = true → s.engine = .running → s.st.latch = true →
    s.st.counter ≠ 0#8 → s.st.counter.toNat ≤ n → s.schedule = List.replicate n .soundTick ++ rest →
    ∃ t, Sys2Proof.core.run n s = .next t ∧
      t.events = s.events ++ (List.range s.st.counter.toNat).map
        (fun k => .toneRequest { ticks := s.st.counter.toNat - k, hz := s.cfg.timerHz }) ∧
      t.st = { counter := 0#8, latch := false } ∧ t.schedule = rest ∧
      State.sameOutside [.st, .events, .schedule] s t

/-- R33: the latch writers among the instructions: DXYN and 00E0 for the delay latch, which they only set; FX18 for the
sound latch, which it only sets. -/
def Obligations.LatchesAreSetOnlyByTheirWriters : Prop :=
  ∀ (i : Instr) (s t : State), exec i s = .next t →
    (t.dt.latch = s.dt.latch ∨ (t.dt.latch = true ∧ (i = .cls ∨ ∃ x y n, i = .drw x y n))) ∧
    (t.st.latch = s.st.latch ∨ (t.st.latch = true ∧ ∃ x, i = .ldStVx x ∧ s.readV x ≠ 0#8))

/-! ### Index register and memory transfer (45_index_memory.md, 20_memory.md) -/

/-- R211, R212, R213: the index register's three writers, and no flag. -/
def Obligations.IndexRegisterWriters : Prop :=
  ∀ (nnn : Addr12) (x : Reg) (s : State),
    (decodeWord (formatA 0xA#4 nnn) = .ok (.ldI nnn) ∧
      ∃ t, exec (.ldI nnn) s = .next t ∧ t.i.toNat = nnn.toNat ∧ t.pc = s.pc + 2#16 ∧
        State.sameOutside [.i, .pc] s t) ∧
    (decodeWord (formatXNN 0xF#4 x 0x1E#8) = .ok (.addI x) ∧
      ∃ t, exec (.addI x) s = .next t ∧ t.i.toNat = (s.i.toNat + (s.readV x).toNat) % 65536 ∧ t.pc = s.pc + 2#16 ∧
        State.sameOutside [.i, .pc] s t) ∧
    (decodeWord (formatXNN 0xF#4 x 0x29#8) = .ok (.ldF x) ∧
      (s.cfg.valid = true → ∃ t, exec (.ldF x) s = .next t ∧
        t.i.toNat = s.cfg.fontBase + 5 * ((s.readV x).toNat % 16) ∧ t.pc = s.pc + 2#16 ∧
        State.sameOutside [.i, .pc] s t))

/-- R54, R55, R56, R57: the arbiter's four operations and their range checks; a write is read back, and leaves every
other byte alone. -/
def Obligations.ArbiterOperations : Prop :=
  ∀ (s : State) (a n : Nat) (b : Byte),
    (s.cfg.userStart ≤ a ∧ a < s.cfg.userEnd → readByte s a = .ok (s.byteAt a) ∧
      ∃ t, writeByte s a b = .done t ∧ t.byteAt a = b ∧ State.sameBytesOutside a 1 s t ∧
        State.sameOutside [.mem] s t) ∧
    (a < s.cfg.userStart ∨ s.cfg.userEnd ≤ a →
      readByte s a = .error { kind := .outOfRange, info := .address a } ∧
        writeByte s a b = .raised { kind := .outOfRange, info := .address a } s) ∧
    (a < 0x0FFF → ∃ w, readWord s a = .ok w ∧ w.toNat = 256 * (s.byteAt a).toNat + (s.byteAt (a + 1)).toNat) ∧
    (0x0FFF ≤ a → readWord s a = .error { kind := .malformedWordRead, info := .address a }) ∧
    (n = 0 ∨ a + n ≤ 0x1000 → ∃ rows, readSprite s a n = .ok rows ∧ rows.length = n ∧
      ∀ k < n, rows[k]? = some (s.byteAt (a + k))) ∧
    (n ≠ 0 → 0x1000 < a + n → readSprite s a n = .error { kind := .outOfRange, info := .address (max a 0x1000) })

/-- R214: the three digits at I, I + 1, I + 2, the hundreds first; and the first address outside user space faults with
the writes before it done. -/
def Obligations.DecimalDigitsStored : Prop :=
  ∀ (x : Reg) (s : State), decodeWord (formatXNN 0xF#4 x 0x33#8) = .ok (.ldB x) ∧
    (s.cfg.userStart ≤ s.i.toNat → s.i.toNat + 2 < s.cfg.userEnd →
      ∃ t, exec (.ldB x) s = .next t ∧
        (t.byteAt s.i.toNat).toNat = (s.readV x).toNat / 100 ∧
        (t.byteAt (s.i.toNat + 1)).toNat = (s.readV x).toNat / 10 % 10 ∧
        (t.byteAt (s.i.toNat + 2)).toNat = (s.readV x).toNat % 10 ∧
        State.sameBytesOutside s.i.toNat 3 s t ∧ t.pc = s.pc + 2#16 ∧ State.sameOutside [.mem, .pc] s t) ∧
    (∀ k < 3, (∀ j < k, s.cfg.userStart ≤ s.i.toNat + j ∧ s.i.toNat + j < s.cfg.userEnd) →
      ¬ (s.cfg.userStart ≤ s.i.toNat + k ∧ s.i.toNat + k < s.cfg.userEnd) →
      ∃ t, exec (.ldB x) s = .next t ∧ State.faultedWith .outOfRange (.address (s.i.toNat + k)) s t ∧
        (0 < k → (t.byteAt s.i.toNat).toNat = (s.readV x).toNat / 100) ∧
        (1 < k → (t.byteAt (s.i.toNat + 1)).toNat = (s.readV x).toNat / 10 % 10) ∧
        State.sameBytesOutside s.i.toNat k s t ∧ State.sameOutside [.mem, .fault, .engine, .events] s t)

/-- R215: V0..VX at I..I + X; and the first address outside user space faults with the registers before it stored. -/
def Obligations.RegistersStored : Prop :=
  ∀ (x : Reg) (s : State), decodeWord (formatXNN 0xF#4 x 0x55#8) = .ok (.ldMemVx x) ∧
    (s.cfg.userStart ≤ s.i.toNat → s.i.toNat + x.val < s.cfg.userEnd →
      ∃ t, exec (.ldMemVx x) s = .next t ∧ (∀ k ≤ x, t.byteAt (s.i.toNat + k.val) = s.readV k) ∧
        State.sameBytesOutside s.i.toNat (x.val + 1) s t ∧ t.pc = s.pc + 2#16 ∧ State.sameOutside [.mem, .pc] s t) ∧
    (∀ k ≤ x, (∀ j < k, s.cfg.userStart ≤ s.i.toNat + j.val ∧ s.i.toNat + j.val < s.cfg.userEnd) →
      ¬ (s.cfg.userStart ≤ s.i.toNat + k.val ∧ s.i.toNat + k.val < s.cfg.userEnd) →
      ∃ t, exec (.ldMemVx x) s = .next t ∧ State.faultedWith .outOfRange (.address (s.i.toNat + k.val)) s t ∧
        (∀ j < k, t.byteAt (s.i.toNat + j.val) = s.readV j) ∧
        State.sameBytesOutside s.i.toNat k.val s t ∧ State.sameOutside [.mem, .fault, .engine, .events] s t)

/-- R216: V0..VX from I..I + X; and the first address outside user space faults with the registers before it loaded. -/
def Obligations.RegistersLoaded : Prop :=
  ∀ (x : Reg) (s : State), decodeWord (formatXNN 0xF#4 x 0x65#8) = .ok (.ldVxMem x) ∧
    (s.cfg.userStart ≤ s.i.toNat → s.i.toNat + x.val < s.cfg.userEnd →
      ∃ t, exec (.ldVxMem x) s = .next t ∧ (∀ k ≤ x, t.readV k = s.byteAt (s.i.toNat + k.val)) ∧
        (∀ r > x, t.readV r = s.readV r) ∧ t.pc = s.pc + 2#16 ∧ State.sameOutside [.regs, .pc] s t) ∧
    (∀ k ≤ x, (∀ j < k, s.cfg.userStart ≤ s.i.toNat + j.val ∧ s.i.toNat + j.val < s.cfg.userEnd) →
      ¬ (s.cfg.userStart ≤ s.i.toNat + k.val ∧ s.i.toNat + k.val < s.cfg.userEnd) →
      ∃ t, exec (.ldVxMem x) s = .next t ∧ State.faultedWith .outOfRange (.address (s.i.toNat + k.val)) s t ∧
        (∀ j < k, t.readV j = s.byteAt (s.i.toNat + j.val)) ∧ (∀ r ≥ k, t.readV r = s.readV r) ∧
        State.sameOutside [.regs, .fault, .engine, .events] s t)

/-- R215, R216: the registers stored by FX55 are the registers that FX65 loads back, whatever the registers held in
between. -/
def Obligations.StoredRegistersLoadBack : Prop :=
  ∀ (x : Reg) (s t s' : State), exec (.ldMemVx x) s = .next t → s.engine = .running → t.engine = .running →
    s'.cfg = t.cfg → s'.mem = t.mem → s'.i = t.i →
    ∃ u, exec (.ldVxMem x) s' = .next u ∧ (∀ k ≤ x, u.readV k = s.readV k) ∧ u.pc = s'.pc + 2#16

/-- R62, R65: an instruction other than FX33 and FX55 leaves every byte of memory as it is. -/
def Obligations.OtherInstructionsKeepMemory : Prop :=
  ∀ (i : Instr) (s t : State), exec i s = .next t → (∀ x, i ≠ .ldB x ∧ i ≠ .ldMemVx x) →
    ∀ a, t.byteAt a = s.byteAt a

/-- R68: a byte that FX55 or FX33 has stored is what every later fetch of it reads while memory is as they left it, the
very next one among them: as the high byte of the word where PC is on it, as the low byte where PC is one before it. -/
def Obligations.StoredBytesAreFetched : Prop :=
  ∀ (x : Reg) (s t u : State) (w : Word), s.engine = .running → t.engine = .running → u.cfg = t.cfg → u.mem = t.mem →
    fetch u = .ok w →
    (exec (.ldMemVx x) s = .next t → ∀ k ≤ x,
      (u.pc.toNat = s.i.toNat + k.val → w.toNat / 256 = (s.readV k).toNat) ∧
      (u.pc.toNat + 1 = s.i.toNat + k.val → w.toNat % 256 = (s.readV k).toNat)) ∧
    (exec (.ldB x) s = .next t → ∀ k d,
      [(s.readV x).toNat / 100, (s.readV x).toNat / 10 % 10, (s.readV x).toNat % 10][k]? = some d →
      (u.pc.toNat = s.i.toNat + k → w.toNat / 256 = d) ∧ (u.pc.toNat + 1 = s.i.toNat + k → w.toNat % 256 = d))

/-! ### Key input (46_input.md) -/

/-- R230, R231, R232: no key never matches, and neither does a value of 0x10 or more. -/
def Obligations.KeySkips : Prop :=
  ∀ (x : Reg) (s : State),
    (decodeWord (formatXNN 0xE#4 x 0x9E#8) = .ok (.skp x) ∧
      ∃ t, exec (.skp x) s = .next t ∧ State.sameOutside [.pc] s t ∧
        ((∃ k : Key, s.key = some k ∧ k.val = (s.readV x).toNat) → t.pc = s.pc + 4#16) ∧
        (¬ (∃ k : Key, s.key = some k ∧ k.val = (s.readV x).toNat) → t.pc = s.pc + 2#16)) ∧
    (decodeWord (formatXNN 0xE#4 x 0xA1#8) = .ok (.sknp x) ∧
      ∃ t, exec (.sknp x) s = .next t ∧ State.sameOutside [.pc] s t ∧
        (¬ (∃ k : Key, s.key = some k ∧ k.val = (s.readV x).toNat) → t.pc = s.pc + 4#16) ∧
        ((∃ k : Key, s.key = some k ∧ k.val = (s.readV x).toNat) → t.pc = s.pc + 2#16))

/-- R233: with a key present FX0A completes at once and does not consume it. With none, the CPU's turn changes nothing
(R234, as the model represents the hold: log entry 4). -/
def Obligations.KeyWait : Prop :=
  ∀ (x : Reg) (s : State), decodeWord (formatXNN 0xF#4 x 0x0A#8) = .ok (.ldVxK x) ∧
    (∀ k : Key, s.key = some k →
      ∃ t, exec (.ldVxK x) s = .next t ∧ (t.readV x).toNat = k.val ∧ (∀ r, r ≠ x → t.readV r = s.readV r) ∧
        t.key = some k ∧ t.pc = s.pc + 2#16 ∧ State.sameOutside [.regs, .pc] s t) ∧
    (s.key = none → exec (.ldVxK x) s = .next s)

/-! ### Faults, the host's ports and the engine (60_exceptions.md) -/

/-- R240, R241, R242: an instruction that halts a Running engine does so by fault entry: one record with the kind's
code, PC at the faulting instruction, one notification; and each kind comes only from the instructions R240 names. The
codes are R240's numbers. That the two stack faults have no info is R240's table, where R29, R131 and R133 write PC (log
entry 6). -/
def Obligations.FaultEntryIsPrecise : Prop :=
  (∀ (i : Instr) (s t : State), exec i s = .next t → s.engine = .running → t.engine ≠ .running →
    (i = .ret ∧ State.faultedWith .stackUnderflow .none s t) ∨
    ((∃ nnn, i = .call nnn) ∧ State.faultedWith .stackOverflow .none s t) ∨
    (((∃ x y n, i = .drw x y n) ∨ ∃ x, i = .ldB x ∨ i = .ldMemVx x ∨ i = .ldVxMem x) ∧
      ∃ a, State.faultedWith .outOfRange (.address a) s t)) ∧
  (∀ (kind : FaultKind) (info : FaultInfo) (s t : State), State.faultedWith kind info s t →
    ∃ r, t.fault = some r ∧ r.kind = kind ∧ r.code =
      match kind with
      | .outOfRange => 1
      | .malformedInstruction => 2
      | .stackOverflow => 3
      | .stackUnderflow => 4
      | .malformedWordRead => 5)

/-- R58: the loader while Idle: the bytes that fit at USER_START, the rest discarded, nothing else changed. -/
def Obligations.LoadCopiesProgram : Prop :=
  ∀ (bytes : List Byte) (s : State), s.engine = .idle →
    ∃ t, takeTurn (.host (.load bytes)) s = .next t ∧
      (∀ k, k < bytes.length → s.cfg.userStart + k < s.cfg.userEnd →
        bytes[k]? = some (t.byteAt (s.cfg.userStart + k))) ∧
      (∀ a, (a < s.cfg.userStart ∨ s.cfg.userEnd ≤ a ∨ s.cfg.userStart + bytes.length ≤ a) →
        t.byteAt a = s.byteAt a) ∧
      State.sameOutside [.mem] s t

/-- R261, R244: run from Idle, cancellation from Running; each changes the engine alone, so that there is no fault record
and no notification. From the other states neither is a host step: the turn passes (log entry 2). -/
def Obligations.RunAndCancel : Prop :=
  ∀ (hz batch : Nat) (s : State),
    (s.engine = .idle → ∃ t, takeTurn (.host (.run hz batch)) s = .next t ∧ t.engine = .running ∧
      State.sameOutside [.engine] s t) ∧
    (s.engine ≠ .idle → takeTurn (.host (.run hz batch)) s = .next s) ∧
    (s.engine = .running → ∃ t, takeTurn (.host .cancel) s = .next t ∧ t.engine = .halted ∧
      State.sameOutside [.engine] s t) ∧
    (s.engine ≠ .running → takeTurn (.host .cancel) s = .next s)

/-- R262, R281: the explicit reset while Idle or Halted; the font, the key and the events are kept. -/
def Obligations.ResetReturnsToIdle : Prop :=
  ∀ s : State, s.cfg.valid = true → s.engine ≠ .running →
    ∃ t, takeTurn (.host .reset) s = .next t ∧
      (∀ a, s.cfg.userStart ≤ a → a < s.cfg.userEnd → t.byteAt a = 0#8) ∧
      (∀ a, (a < s.cfg.userStart ∨ s.cfg.userEnd ≤ a) → t.byteAt a = s.byteAt a) ∧
      (∀ r, t.readV r = 0#8) ∧ t.i = 0#16 ∧ t.pc.toNat = s.cfg.userStart ∧ t.stack = [] ∧
      t.dt = { counter := 0#8, latch := false } ∧ t.st = { counter := 0#8, latch := false } ∧
      (∀ px py, t.pixel px py = false) ∧ t.engine = .idle ∧ t.fault = none ∧
      t.key = s.key ∧ t.events = s.events ∧ t.cfg = s.cfg

/-- R264, R266: the input latch takes any value in any engine state; a snapshot changes no state and is the grid of all
pixels. R266 gives the copy no order: that pixel (x, y) is entry y · DISPLAY_W + x is the model's layout (log entry 9). -/
def Obligations.KeyLatchAndSnapshot : Prop :=
  ∀ (k : Option Key) (s : State),
    (∃ t, takeTurn (.host (.writeKey k)) s = .next t ∧ t.key = k ∧ State.sameOutside [.key] s t) ∧
    takeTurn (.host .snapshot) s = .next s ∧
    ∀ x < s.cfg.displayW, ∀ y < s.cfg.displayH,
      s.pixel x y = (displaySnapshot s).getD (y * s.cfg.displayW + x) false

/-- R263: the engine changes state only by the transitions of R263's table, each with its event and its effect on the
fault record and the notifications. -/
def Obligations.EngineStateMachine : Prop :=
  ∀ s t : State, step s = .next t →
    t.engine = s.engine ∨
    (s.engine = .idle ∧ t.engine = .running ∧ ∃ hz batch, nextTurn s = .host (.run hz batch)) ∨
    (s.engine = .running ∧ t.engine = .halted ∧ nextTurn s = .host .cancel ∧ t.fault = s.fault ∧
      t.events = s.events) ∨
    (s.engine = .running ∧ t.engine = .halted ∧ nextTurn s = .cpu ∧ ∃ kind info, State.faultedWith kind info s t) ∨
    (s.engine = .halted ∧ t.engine = .idle ∧ nextTurn s = .host .reset ∧ t.fault = none)

/-- R22 (and R281, which alone excepts the explicit reset): no timer tick and no other host action changes a general
register or I. -/
def Obligations.OnlyTheCpuWritesRegisters : Prop :=
  ∀ s t : State, step s = .next t → nextTurn s ≠ .cpu → nextTurn s ≠ .host .reset →
    (∀ r, t.readV r = s.readV r) ∧ t.i = s.i

/-! ### Construction (70_reset_and_hazards.md, 20_memory.md) -/

/-- R282, column "after construction", and R280: what construction leaves, in every valid configuration; and the state
after reset is the construction with R7's values, which is a valid configuration, so that PC is 0x200. -/
def Obligations.ConstructionValues : Prop :=
  (∀ c : Config, c.valid = true →
    (∀ r, (State.constructed c).readV r = 0#8) ∧ (State.constructed c).i = 0#16 ∧
    (State.constructed c).pc.toNat = c.userStart ∧ (State.constructed c).stack = [] ∧
    (State.constructed c).dt = { counter := 0#8, latch := false } ∧
    (State.constructed c).st = { counter := 0#8, latch := false } ∧
    (∀ x y, (State.constructed c).pixel x y = false) ∧ (State.constructed c).key = none ∧
    (State.constructed c).engine = .idle ∧ (State.constructed c).fault = none ∧
    (State.constructed c).events = [] ∧ (State.constructed c).cfg = c ∧
    (∀ a, c.fontBase + 80 ≤ a → (State.constructed c).byteAt a = 0#8)) ∧
  Sys2Proof.core.reset = State.constructed
    { stackDepth := 16, displayW := 64, displayH := 32, userStart := 0x200, userEnd := 0x1000, fontBase := 0x000,
      timerHz := 60 } ∧
  State.reset.cfg.valid = true ∧ State.reset.pc = 0x200#16

/-- R52: the glyphs of the hexadecimal digits, five bytes each from FONT_BASE on, and zero elsewhere. -/
def Obligations.FontAtConstruction : Prop :=
  ∀ c : Config,
    (∀ d k glyph row, [[0xF0#8, 0x90#8, 0x90#8, 0x90#8, 0xF0#8], [0x20#8, 0x60#8, 0x20#8, 0x20#8, 0x70#8],
        [0xF0#8, 0x10#8, 0xF0#8, 0x80#8, 0xF0#8], [0xF0#8, 0x10#8, 0xF0#8, 0x10#8, 0xF0#8],
        [0x90#8, 0x90#8, 0xF0#8, 0x10#8, 0x10#8], [0xF0#8, 0x80#8, 0xF0#8, 0x10#8, 0xF0#8],
        [0xF0#8, 0x80#8, 0xF0#8, 0x90#8, 0xF0#8], [0xF0#8, 0x10#8, 0x20#8, 0x40#8, 0x40#8],
        [0xF0#8, 0x90#8, 0xF0#8, 0x90#8, 0xF0#8], [0xF0#8, 0x90#8, 0xF0#8, 0x10#8, 0xF0#8],
        [0xF0#8, 0x90#8, 0xF0#8, 0x90#8, 0x90#8], [0xE0#8, 0x90#8, 0xE0#8, 0x90#8, 0xE0#8],
        [0xF0#8, 0x80#8, 0x80#8, 0x80#8, 0xF0#8], [0xE0#8, 0x90#8, 0x90#8, 0x90#8, 0xE0#8],
        [0xF0#8, 0x80#8, 0xF0#8, 0x80#8, 0xF0#8], [0xF0#8, 0x80#8, 0xF0#8, 0x80#8, 0x80#8]][d]? = some glyph →
      glyph[k]? = some row → (State.constructed c).byteAt (c.fontBase + 5 * d + k) = row) ∧
    ∀ a, (a < c.fontBase ∨ c.fontBase + 80 ≤ a) → (State.constructed c).byteAt a = 0#8

/-! ### The whole machine -/

/-- The invariant holds after construction, in every valid configuration. -/
def Obligations.ConstructionMeetsInvariant : Prop :=
  ∀ c : Config, c.valid = true → (State.constructed c).Inv ∧ (State.constructed c).PcBounded

/-- Every step keeps the invariant: the configuration is valid, memory is canonical, the stack is bounded (R29), the
grid has every pixel (R35), and a fault record stands only while Halted and names the instruction at PC (R241, R242). -/
def Obligations.StepKeepsInvariant : Prop :=
  ∀ s t : State, s.Inv → step s = .next t → t.Inv

/-- R53: no step changes a byte of the reserved region. -/
def Obligations.ReservedRegionIsImmutable : Prop :=
  ∀ s t : State, step s = .next t → ∀ a < s.cfg.userStart, t.byteAt a = s.byteAt a

/-- R28: PC never goes above 0x10FE. -/
def Obligations.PcStaysBounded : Prop :=
  ∀ s t : State, s.PcBounded → step s = .next t → t.PcBounded

/-- R262, R265: the history of notifications is append-only, grows by at most one a step, and the configuration never
changes (R267, R280). -/
def Obligations.EventsAreAppendOnly : Prop :=
  ∀ s t : State, step s = .next t →
    t.cfg = s.cfg ∧ (t.events = s.events ∨ ∃ e, t.events = s.events ++ [e])
end

