-- ==== Sys2Proof/Laws/State.lean ====
section
/-! SUPPORT. One lemma per field per update of State, true by rfl, so that no later proof unfolds an update; then the
register file and the byte read through each update. -/

namespace Sys2Proof.Machine

namespace State

variable (s : State)

/-! ### writeV -/

@[simp] theorem writeV_cfg (x : Reg) (b : Byte) : (s.writeV x b).cfg = s.cfg := rfl
@[simp] theorem writeV_v (x : Reg) (b : Byte) : (s.writeV x b).v = s.v.set x b := rfl
@[simp] theorem writeV_i (x : Reg) (b : Byte) : (s.writeV x b).i = s.i := rfl
@[simp] theorem writeV_pc (x : Reg) (b : Byte) : (s.writeV x b).pc = s.pc := rfl
@[simp] theorem writeV_stack (x : Reg) (b : Byte) : (s.writeV x b).stack = s.stack := rfl
@[simp] theorem writeV_dt (x : Reg) (b : Byte) : (s.writeV x b).dt = s.dt := rfl
@[simp] theorem writeV_st (x : Reg) (b : Byte) : (s.writeV x b).st = s.st := rfl
@[simp] theorem writeV_display (x : Reg) (b : Byte) : (s.writeV x b).display = s.display := rfl
@[simp] theorem writeV_mem (x : Reg) (b : Byte) : (s.writeV x b).mem = s.mem := rfl
@[simp] theorem writeV_key (x : Reg) (b : Byte) : (s.writeV x b).key = s.key := rfl
@[simp] theorem writeV_engine (x : Reg) (b : Byte) : (s.writeV x b).engine = s.engine := rfl
@[simp] theorem writeV_fault (x : Reg) (b : Byte) : (s.writeV x b).fault = s.fault := rfl
@[simp] theorem writeV_events (x : Reg) (b : Byte) : (s.writeV x b).events = s.events := rfl
@[simp] theorem writeV_draws (x : Reg) (b : Byte) : (s.writeV x b).draws = s.draws := rfl
@[simp] theorem writeV_schedule (x : Reg) (b : Byte) : (s.writeV x b).schedule = s.schedule := rfl
@[simp] theorem writeV_order (x : Reg) (b : Byte) : (s.writeV x b).order = s.order := rfl

/-! ### setPc -/

@[simp] theorem setPc_cfg (a : Word) : (s.setPc a).cfg = s.cfg := rfl
@[simp] theorem setPc_v (a : Word) : (s.setPc a).v = s.v := rfl
@[simp] theorem setPc_i (a : Word) : (s.setPc a).i = s.i := rfl
@[simp] theorem setPc_pc (a : Word) : (s.setPc a).pc = a := rfl
@[simp] theorem setPc_stack (a : Word) : (s.setPc a).stack = s.stack := rfl
@[simp] theorem setPc_dt (a : Word) : (s.setPc a).dt = s.dt := rfl
@[simp] theorem setPc_st (a : Word) : (s.setPc a).st = s.st := rfl
@[simp] theorem setPc_display (a : Word) : (s.setPc a).display = s.display := rfl
@[simp] theorem setPc_mem (a : Word) : (s.setPc a).mem = s.mem := rfl
@[simp] theorem setPc_key (a : Word) : (s.setPc a).key = s.key := rfl
@[simp] theorem setPc_engine (a : Word) : (s.setPc a).engine = s.engine := rfl
@[simp] theorem setPc_fault (a : Word) : (s.setPc a).fault = s.fault := rfl
@[simp] theorem setPc_events (a : Word) : (s.setPc a).events = s.events := rfl
@[simp] theorem setPc_draws (a : Word) : (s.setPc a).draws = s.draws := rfl
@[simp] theorem setPc_schedule (a : Word) : (s.setPc a).schedule = s.schedule := rfl
@[simp] theorem setPc_order (a : Word) : (s.setPc a).order = s.order := rfl

/-! ### setI -/

@[simp] theorem setI_cfg (a : Word) : (s.setI a).cfg = s.cfg := rfl
@[simp] theorem setI_v (a : Word) : (s.setI a).v = s.v := rfl
@[simp] theorem setI_i (a : Word) : (s.setI a).i = a := rfl
@[simp] theorem setI_pc (a : Word) : (s.setI a).pc = s.pc := rfl
@[simp] theorem setI_stack (a : Word) : (s.setI a).stack = s.stack := rfl
@[simp] theorem setI_dt (a : Word) : (s.setI a).dt = s.dt := rfl
@[simp] theorem setI_st (a : Word) : (s.setI a).st = s.st := rfl
@[simp] theorem setI_display (a : Word) : (s.setI a).display = s.display := rfl
@[simp] theorem setI_mem (a : Word) : (s.setI a).mem = s.mem := rfl
@[simp] theorem setI_key (a : Word) : (s.setI a).key = s.key := rfl
@[simp] theorem setI_engine (a : Word) : (s.setI a).engine = s.engine := rfl
@[simp] theorem setI_fault (a : Word) : (s.setI a).fault = s.fault := rfl
@[simp] theorem setI_events (a : Word) : (s.setI a).events = s.events := rfl
@[simp] theorem setI_draws (a : Word) : (s.setI a).draws = s.draws := rfl
@[simp] theorem setI_schedule (a : Word) : (s.setI a).schedule = s.schedule := rfl
@[simp] theorem setI_order (a : Word) : (s.setI a).order = s.order := rfl

/-! ### setStack -/

@[simp] theorem setStack_cfg (l : List Word) : (s.setStack l).cfg = s.cfg := rfl
@[simp] theorem setStack_v (l : List Word) : (s.setStack l).v = s.v := rfl
@[simp] theorem setStack_i (l : List Word) : (s.setStack l).i = s.i := rfl
@[simp] theorem setStack_pc (l : List Word) : (s.setStack l).pc = s.pc := rfl
@[simp] theorem setStack_stack (l : List Word) : (s.setStack l).stack = l := rfl
@[simp] theorem setStack_dt (l : List Word) : (s.setStack l).dt = s.dt := rfl
@[simp] theorem setStack_st (l : List Word) : (s.setStack l).st = s.st := rfl
@[simp] theorem setStack_display (l : List Word) : (s.setStack l).display = s.display := rfl
@[simp] theorem setStack_mem (l : List Word) : (s.setStack l).mem = s.mem := rfl
@[simp] theorem setStack_key (l : List Word) : (s.setStack l).key = s.key := rfl
@[simp] theorem setStack_engine (l : List Word) : (s.setStack l).engine = s.engine := rfl
@[simp] theorem setStack_fault (l : List Word) : (s.setStack l).fault = s.fault := rfl
@[simp] theorem setStack_events (l : List Word) : (s.setStack l).events = s.events := rfl
@[simp] theorem setStack_draws (l : List Word) : (s.setStack l).draws = s.draws := rfl
@[simp] theorem setStack_schedule (l : List Word) : (s.setStack l).schedule = s.schedule := rfl
@[simp] theorem setStack_order (l : List Word) : (s.setStack l).order = s.order := rfl

/-! ### setDt -/

@[simp] theorem setDt_cfg (t : Timer) : (s.setDt t).cfg = s.cfg := rfl
@[simp] theorem setDt_v (t : Timer) : (s.setDt t).v = s.v := rfl
@[simp] theorem setDt_i (t : Timer) : (s.setDt t).i = s.i := rfl
@[simp] theorem setDt_pc (t : Timer) : (s.setDt t).pc = s.pc := rfl
@[simp] theorem setDt_stack (t : Timer) : (s.setDt t).stack = s.stack := rfl
@[simp] theorem setDt_dt (t : Timer) : (s.setDt t).dt = t := rfl
@[simp] theorem setDt_st (t : Timer) : (s.setDt t).st = s.st := rfl
@[simp] theorem setDt_display (t : Timer) : (s.setDt t).display = s.display := rfl
@[simp] theorem setDt_mem (t : Timer) : (s.setDt t).mem = s.mem := rfl
@[simp] theorem setDt_key (t : Timer) : (s.setDt t).key = s.key := rfl
@[simp] theorem setDt_engine (t : Timer) : (s.setDt t).engine = s.engine := rfl
@[simp] theorem setDt_fault (t : Timer) : (s.setDt t).fault = s.fault := rfl
@[simp] theorem setDt_events (t : Timer) : (s.setDt t).events = s.events := rfl
@[simp] theorem setDt_draws (t : Timer) : (s.setDt t).draws = s.draws := rfl
@[simp] theorem setDt_schedule (t : Timer) : (s.setDt t).schedule = s.schedule := rfl
@[simp] theorem setDt_order (t : Timer) : (s.setDt t).order = s.order := rfl

/-! ### setSt -/

@[simp] theorem setSt_cfg (t : Timer) : (s.setSt t).cfg = s.cfg := rfl
@[simp] theorem setSt_v (t : Timer) : (s.setSt t).v = s.v := rfl
@[simp] theorem setSt_i (t : Timer) : (s.setSt t).i = s.i := rfl
@[simp] theorem setSt_pc (t : Timer) : (s.setSt t).pc = s.pc := rfl
@[simp] theorem setSt_stack (t : Timer) : (s.setSt t).stack = s.stack := rfl
@[simp] theorem setSt_dt (t : Timer) : (s.setSt t).dt = s.dt := rfl
@[simp] theorem setSt_st (t : Timer) : (s.setSt t).st = t := rfl
@[simp] theorem setSt_display (t : Timer) : (s.setSt t).display = s.display := rfl
@[simp] theorem setSt_mem (t : Timer) : (s.setSt t).mem = s.mem := rfl
@[simp] theorem setSt_key (t : Timer) : (s.setSt t).key = s.key := rfl
@[simp] theorem setSt_engine (t : Timer) : (s.setSt t).engine = s.engine := rfl
@[simp] theorem setSt_fault (t : Timer) : (s.setSt t).fault = s.fault := rfl
@[simp] theorem setSt_events (t : Timer) : (s.setSt t).events = s.events := rfl
@[simp] theorem setSt_draws (t : Timer) : (s.setSt t).draws = s.draws := rfl
@[simp] theorem setSt_schedule (t : Timer) : (s.setSt t).schedule = s.schedule := rfl
@[simp] theorem setSt_order (t : Timer) : (s.setSt t).order = s.order := rfl

/-! ### setDisplay -/

@[simp] theorem setDisplay_cfg (d : List Bool) : (s.setDisplay d).cfg = s.cfg := rfl
@[simp] theorem setDisplay_v (d : List Bool) : (s.setDisplay d).v = s.v := rfl
@[simp] theorem setDisplay_i (d : List Bool) : (s.setDisplay d).i = s.i := rfl
@[simp] theorem setDisplay_pc (d : List Bool) : (s.setDisplay d).pc = s.pc := rfl
@[simp] theorem setDisplay_stack (d : List Bool) : (s.setDisplay d).stack = s.stack := rfl
@[simp] theorem setDisplay_dt (d : List Bool) : (s.setDisplay d).dt = s.dt := rfl
@[simp] theorem setDisplay_st (d : List Bool) : (s.setDisplay d).st = s.st := rfl
@[simp] theorem setDisplay_display (d : List Bool) : (s.setDisplay d).display = d := rfl
@[simp] theorem setDisplay_mem (d : List Bool) : (s.setDisplay d).mem = s.mem := rfl
@[simp] theorem setDisplay_key (d : List Bool) : (s.setDisplay d).key = s.key := rfl
@[simp] theorem setDisplay_engine (d : List Bool) : (s.setDisplay d).engine = s.engine := rfl
@[simp] theorem setDisplay_fault (d : List Bool) : (s.setDisplay d).fault = s.fault := rfl
@[simp] theorem setDisplay_events (d : List Bool) : (s.setDisplay d).events = s.events := rfl
@[simp] theorem setDisplay_draws (d : List Bool) : (s.setDisplay d).draws = s.draws := rfl
@[simp] theorem setDisplay_schedule (d : List Bool) : (s.setDisplay d).schedule = s.schedule := rfl
@[simp] theorem setDisplay_order (d : List Bool) : (s.setDisplay d).order = s.order := rfl

/-! ### setMem -/

@[simp] theorem setMem_cfg (m : Memory) : (s.setMem m).cfg = s.cfg := rfl
@[simp] theorem setMem_v (m : Memory) : (s.setMem m).v = s.v := rfl
@[simp] theorem setMem_i (m : Memory) : (s.setMem m).i = s.i := rfl
@[simp] theorem setMem_pc (m : Memory) : (s.setMem m).pc = s.pc := rfl
@[simp] theorem setMem_stack (m : Memory) : (s.setMem m).stack = s.stack := rfl
@[simp] theorem setMem_dt (m : Memory) : (s.setMem m).dt = s.dt := rfl
@[simp] theorem setMem_st (m : Memory) : (s.setMem m).st = s.st := rfl
@[simp] theorem setMem_display (m : Memory) : (s.setMem m).display = s.display := rfl
@[simp] theorem setMem_mem (m : Memory) : (s.setMem m).mem = m := rfl
@[simp] theorem setMem_key (m : Memory) : (s.setMem m).key = s.key := rfl
@[simp] theorem setMem_engine (m : Memory) : (s.setMem m).engine = s.engine := rfl
@[simp] theorem setMem_fault (m : Memory) : (s.setMem m).fault = s.fault := rfl
@[simp] theorem setMem_events (m : Memory) : (s.setMem m).events = s.events := rfl
@[simp] theorem setMem_draws (m : Memory) : (s.setMem m).draws = s.draws := rfl
@[simp] theorem setMem_schedule (m : Memory) : (s.setMem m).schedule = s.schedule := rfl
@[simp] theorem setMem_order (m : Memory) : (s.setMem m).order = s.order := rfl

/-! ### emit -/

@[simp] theorem emit_cfg (e : Notification) : (s.emit e).cfg = s.cfg := rfl
@[simp] theorem emit_v (e : Notification) : (s.emit e).v = s.v := rfl
@[simp] theorem emit_i (e : Notification) : (s.emit e).i = s.i := rfl
@[simp] theorem emit_pc (e : Notification) : (s.emit e).pc = s.pc := rfl
@[simp] theorem emit_stack (e : Notification) : (s.emit e).stack = s.stack := rfl
@[simp] theorem emit_dt (e : Notification) : (s.emit e).dt = s.dt := rfl
@[simp] theorem emit_st (e : Notification) : (s.emit e).st = s.st := rfl
@[simp] theorem emit_display (e : Notification) : (s.emit e).display = s.display := rfl
@[simp] theorem emit_mem (e : Notification) : (s.emit e).mem = s.mem := rfl
@[simp] theorem emit_key (e : Notification) : (s.emit e).key = s.key := rfl
@[simp] theorem emit_engine (e : Notification) : (s.emit e).engine = s.engine := rfl
@[simp] theorem emit_fault (e : Notification) : (s.emit e).fault = s.fault := rfl
@[simp] theorem emit_events (e : Notification) : (s.emit e).events = s.events ++ [e] := rfl
@[simp] theorem emit_draws (e : Notification) : (s.emit e).draws = s.draws := rfl
@[simp] theorem emit_schedule (e : Notification) : (s.emit e).schedule = s.schedule := rfl
@[simp] theorem emit_order (e : Notification) : (s.emit e).order = s.order := rfl

/-! ### countDraw -/

@[simp] theorem countDraw_cfg : (s.countDraw).cfg = s.cfg := rfl
@[simp] theorem countDraw_v : (s.countDraw).v = s.v := rfl
@[simp] theorem countDraw_i : (s.countDraw).i = s.i := rfl
@[simp] theorem countDraw_pc : (s.countDraw).pc = s.pc := rfl
@[simp] theorem countDraw_stack : (s.countDraw).stack = s.stack := rfl
@[simp] theorem countDraw_dt : (s.countDraw).dt = s.dt := rfl
@[simp] theorem countDraw_st : (s.countDraw).st = s.st := rfl
@[simp] theorem countDraw_display : (s.countDraw).display = s.display := rfl
@[simp] theorem countDraw_mem : (s.countDraw).mem = s.mem := rfl
@[simp] theorem countDraw_key : (s.countDraw).key = s.key := rfl
@[simp] theorem countDraw_engine : (s.countDraw).engine = s.engine := rfl
@[simp] theorem countDraw_fault : (s.countDraw).fault = s.fault := rfl
@[simp] theorem countDraw_events : (s.countDraw).events = s.events := rfl
@[simp] theorem countDraw_draws : (s.countDraw).draws = s.draws + 1 := rfl
@[simp] theorem countDraw_schedule : (s.countDraw).schedule = s.schedule := rfl
@[simp] theorem countDraw_order : (s.countDraw).order = s.order := rfl

/-! ### advance -/

@[simp] theorem advance_cfg : (s.advance).cfg = s.cfg := rfl
@[simp] theorem advance_v : (s.advance).v = s.v := rfl
@[simp] theorem advance_i : (s.advance).i = s.i := rfl
@[simp] theorem advance_pc : (s.advance).pc = s.pc + 2#16 := rfl
@[simp] theorem advance_stack : (s.advance).stack = s.stack := rfl
@[simp] theorem advance_dt : (s.advance).dt = s.dt := rfl
@[simp] theorem advance_st : (s.advance).st = s.st := rfl
@[simp] theorem advance_display : (s.advance).display = s.display := rfl
@[simp] theorem advance_mem : (s.advance).mem = s.mem := rfl
@[simp] theorem advance_key : (s.advance).key = s.key := rfl
@[simp] theorem advance_engine : (s.advance).engine = s.engine := rfl
@[simp] theorem advance_fault : (s.advance).fault = s.fault := rfl
@[simp] theorem advance_events : (s.advance).events = s.events := rfl
@[simp] theorem advance_draws : (s.advance).draws = s.draws := rfl
@[simp] theorem advance_schedule : (s.advance).schedule = s.schedule := rfl
@[simp] theorem advance_order : (s.advance).order = s.order := rfl

/-! ### skipIf -/

@[simp] theorem skipIf_cfg (c : Bool) : (s.skipIf c).cfg = s.cfg := rfl
@[simp] theorem skipIf_v (c : Bool) : (s.skipIf c).v = s.v := rfl
@[simp] theorem skipIf_i (c : Bool) : (s.skipIf c).i = s.i := rfl
@[simp] theorem skipIf_pc (c : Bool) : (s.skipIf c).pc = s.pc + if c then 4#16 else 2#16 := rfl
@[simp] theorem skipIf_stack (c : Bool) : (s.skipIf c).stack = s.stack := rfl
@[simp] theorem skipIf_dt (c : Bool) : (s.skipIf c).dt = s.dt := rfl
@[simp] theorem skipIf_st (c : Bool) : (s.skipIf c).st = s.st := rfl
@[simp] theorem skipIf_display (c : Bool) : (s.skipIf c).display = s.display := rfl
@[simp] theorem skipIf_mem (c : Bool) : (s.skipIf c).mem = s.mem := rfl
@[simp] theorem skipIf_key (c : Bool) : (s.skipIf c).key = s.key := rfl
@[simp] theorem skipIf_engine (c : Bool) : (s.skipIf c).engine = s.engine := rfl
@[simp] theorem skipIf_fault (c : Bool) : (s.skipIf c).fault = s.fault := rfl
@[simp] theorem skipIf_events (c : Bool) : (s.skipIf c).events = s.events := rfl
@[simp] theorem skipIf_draws (c : Bool) : (s.skipIf c).draws = s.draws := rfl
@[simp] theorem skipIf_schedule (c : Bool) : (s.skipIf c).schedule = s.schedule := rfl
@[simp] theorem skipIf_order (c : Bool) : (s.skipIf c).order = s.order := rfl

/-! ### Reading a register and a byte after an update -/

@[simp] theorem byteAt_writeV (x : Reg) (b : Byte) (k : Nat) : (s.writeV x b).byteAt k = s.byteAt k := rfl
@[simp] theorem readV_setPc (a : Word) (r : Reg) : (s.setPc a).readV r = s.readV r := rfl
@[simp] theorem byteAt_setPc (a : Word) (k : Nat) : (s.setPc a).byteAt k = s.byteAt k := rfl
@[simp] theorem readV_setI (a : Word) (r : Reg) : (s.setI a).readV r = s.readV r := rfl
@[simp] theorem byteAt_setI (a : Word) (k : Nat) : (s.setI a).byteAt k = s.byteAt k := rfl
@[simp] theorem readV_setStack (l : List Word) (r : Reg) : (s.setStack l).readV r = s.readV r := rfl
@[simp] theorem byteAt_setStack (l : List Word) (k : Nat) : (s.setStack l).byteAt k = s.byteAt k := rfl
@[simp] theorem readV_setDt (t : Timer) (r : Reg) : (s.setDt t).readV r = s.readV r := rfl
@[simp] theorem byteAt_setDt (t : Timer) (k : Nat) : (s.setDt t).byteAt k = s.byteAt k := rfl
@[simp] theorem readV_setSt (t : Timer) (r : Reg) : (s.setSt t).readV r = s.readV r := rfl
@[simp] theorem byteAt_setSt (t : Timer) (k : Nat) : (s.setSt t).byteAt k = s.byteAt k := rfl
@[simp] theorem readV_setDisplay (d : List Bool) (r : Reg) : (s.setDisplay d).readV r = s.readV r := rfl
@[simp] theorem byteAt_setDisplay (d : List Bool) (k : Nat) : (s.setDisplay d).byteAt k = s.byteAt k := rfl
@[simp] theorem readV_setMem (m : Memory) (r : Reg) : (s.setMem m).readV r = s.readV r := rfl
@[simp] theorem readV_emit (e : Notification) (r : Reg) : (s.emit e).readV r = s.readV r := rfl
@[simp] theorem byteAt_emit (e : Notification) (k : Nat) : (s.emit e).byteAt k = s.byteAt k := rfl
@[simp] theorem readV_countDraw (r : Reg) : (s.countDraw).readV r = s.readV r := rfl
@[simp] theorem byteAt_countDraw (k : Nat) : (s.countDraw).byteAt k = s.byteAt k := rfl
@[simp] theorem readV_advance (r : Reg) : (s.advance).readV r = s.readV r := rfl
@[simp] theorem byteAt_advance (k : Nat) : (s.advance).byteAt k = s.byteAt k := rfl
@[simp] theorem readV_skipIf (c : Bool) (r : Reg) : (s.skipIf c).readV r = s.readV r := rfl
@[simp] theorem byteAt_skipIf (c : Bool) (k : Nat) : (s.skipIf c).byteAt k = s.byteAt k := rfl

@[simp] theorem byteAt_setMem (m : Memory) (k : Nat) : (s.setMem m).byteAt k = Memory.read s.cfg m k := rfl

theorem readV_writeV (x : Reg) (b : Byte) (r : Reg) : (s.writeV x b).readV r = if r = x then b else s.readV r := by
  simp only [readV, writeV, Fin.getElem_fin, Vector.getElem_set, Fin.val_inj, eq_comm]

@[simp] theorem readV_writeV_self (x : Reg) (b : Byte) : (s.writeV x b).readV x = b := by
  simp [readV_writeV]

theorem readV_writeV_ne (x : Reg) (b : Byte) {r : Reg} (h : r ≠ x) : (s.writeV x b).readV r = s.readV r := by
  simp [readV_writeV, h]

theorem readV_constructed (c : Config) (r : Reg) : (State.constructed c).readV r = 0 := by
  simp [readV, State.constructed]

end State

/-! ### Fault entry -/

@[simp] theorem enterFault_cfg (r : Raise) (s : State) : (enterFault r s).cfg = s.cfg := rfl
@[simp] theorem enterFault_v (r : Raise) (s : State) : (enterFault r s).v = s.v := rfl
@[simp] theorem enterFault_i (r : Raise) (s : State) : (enterFault r s).i = s.i := rfl
@[simp] theorem enterFault_pc (r : Raise) (s : State) : (enterFault r s).pc = s.pc := rfl
@[simp] theorem enterFault_stack (r : Raise) (s : State) : (enterFault r s).stack = s.stack := rfl
@[simp] theorem enterFault_dt (r : Raise) (s : State) : (enterFault r s).dt = s.dt := rfl
@[simp] theorem enterFault_st (r : Raise) (s : State) : (enterFault r s).st = s.st := rfl
@[simp] theorem enterFault_display (r : Raise) (s : State) : (enterFault r s).display = s.display := rfl
@[simp] theorem enterFault_mem (r : Raise) (s : State) : (enterFault r s).mem = s.mem := rfl
@[simp] theorem enterFault_key (r : Raise) (s : State) : (enterFault r s).key = s.key := rfl
@[simp] theorem enterFault_engine (r : Raise) (s : State) : (enterFault r s).engine = .halted := rfl
@[simp] theorem enterFault_fault (r : Raise) (s : State) : (enterFault r s).fault = some (faultRecord r s) := rfl
@[simp] theorem enterFault_events (r : Raise) (s : State) : (enterFault r s).events = s.events ++ [.faultOccurred (faultRecord r s)] := rfl
@[simp] theorem enterFault_draws (r : Raise) (s : State) : (enterFault r s).draws = s.draws := rfl
@[simp] theorem enterFault_schedule (r : Raise) (s : State) : (enterFault r s).schedule = s.schedule := rfl
@[simp] theorem enterFault_order (r : Raise) (s : State) : (enterFault r s).order = s.order := rfl
@[simp] theorem readV_enterFault (r : Raise) (s : State) (x : Reg) : (enterFault r s).readV x = s.readV x := rfl
@[simp] theorem byteAt_enterFault (r : Raise) (s : State) (k : Nat) : (enterFault r s).byteAt k = s.byteAt k := rfl

/-- Everything fault entry does, and that it does nothing else (R241). -/
theorem enterFault_spec (r : Raise) (s : State) :
    State.faultedWith r.kind r.info s (enterFault r s) ∧
      State.sameOutside [.fault, .engine, .events] s (enterFault r s) := by
  simp [State.faultedWith, State.sameOutside, faultRecord]

/-! ### Taking a turn off the schedule -/

@[simp] theorem popTurn_cfg (s : State) : (popTurn s).cfg = s.cfg := rfl
@[simp] theorem popTurn_v (s : State) : (popTurn s).v = s.v := rfl
@[simp] theorem popTurn_i (s : State) : (popTurn s).i = s.i := rfl
@[simp] theorem popTurn_pc (s : State) : (popTurn s).pc = s.pc := rfl
@[simp] theorem popTurn_stack (s : State) : (popTurn s).stack = s.stack := rfl
@[simp] theorem popTurn_dt (s : State) : (popTurn s).dt = s.dt := rfl
@[simp] theorem popTurn_st (s : State) : (popTurn s).st = s.st := rfl
@[simp] theorem popTurn_display (s : State) : (popTurn s).display = s.display := rfl
@[simp] theorem popTurn_mem (s : State) : (popTurn s).mem = s.mem := rfl
@[simp] theorem popTurn_key (s : State) : (popTurn s).key = s.key := rfl
@[simp] theorem popTurn_engine (s : State) : (popTurn s).engine = s.engine := rfl
@[simp] theorem popTurn_fault (s : State) : (popTurn s).fault = s.fault := rfl
@[simp] theorem popTurn_events (s : State) : (popTurn s).events = s.events := rfl
@[simp] theorem popTurn_draws (s : State) : (popTurn s).draws = s.draws := rfl
@[simp] theorem popTurn_schedule (s : State) : (popTurn s).schedule = s.schedule.tail := rfl
@[simp] theorem popTurn_order (s : State) : (popTurn s).order = orderAfter s.schedule s.order := rfl

/-- A settled turn is the next one, and leaves the open order as it is. -/
theorem nextTurn_settled {s : State} {t : Turn} {rest : List Turn} (h : s.schedule = t :: rest) :
    nextTurn s = t ∧ (popTurn s).schedule = rest ∧ (popTurn s).order = s.order := by
  simp [nextTurn, orderAfter, h]

/-- Where no turn is settled, the next one is the open order's. -/
theorem nextTurn_open {s : State} (h : s.schedule = []) :
    nextTurn s = openTurn s.order ∧ (popTurn s).schedule = [] ∧ (popTurn s).order = s.order.next := by
  simp [nextTurn, orderAfter, h]

@[simp] theorem readV_popTurn (s : State) (x : Reg) : (popTurn s).readV x = s.readV x := rfl
@[simp] theorem byteAt_popTurn (s : State) (k : Nat) : (popTurn s).byteAt k = s.byteAt k := rfl

end Sys2Proof.Machine
end

