-- ==== Sys2Proof/Laws/Blit.lean ====
section
/-! SUPPORT. The blit engine's spec lemma: a sprite is a list of pixels without repeats, each toggled once, so that a
draw is an exclusive or on the grid and its collision flag says whether a toggled pixel was set (R181, R184, R185). -/

namespace Sys2Proof.Machine

/-- The pixel at column `x`, row `y` of a framebuffer kept row by row. -/
def gridAt (c : Config) (d : List Bool) (x y : Nat) : Bool := d.getD (y * c.displayW + x) false

theorem State.pixel_eq_gridAt {s : State} {x y : Nat} (hx : x < s.cfg.displayW) (hy : y < s.cfg.displayH) :
    s.pixel x y = gridAt s.cfg s.display x y := by
  simp [State.pixel, gridAt, hx, hy]

theorem State.pixel_of_out {s : State} {x y : Nat} (h : ¬ (x < s.cfg.displayW ∧ y < s.cfg.displayH)) :
    s.pixel x y = false := by
  simp only [State.pixel, h, decide_false, Bool.false_and]

/-- Positions of different pixels differ. -/
theorem position_inj {w x y x' y' : Nat} (hx : x < w) (hx' : x' < w) (h : y * w + x = y' * w + x') :
    x = x' ∧ y = y' := by
  have hm := congrArg (· % w) h
  have hd := congrArg (· / w) h
  have hw : 0 < w := by omega
  simp only [Nat.mul_add_mod_self_right, Nat.mod_eq_of_lt hx, Nat.mod_eq_of_lt hx'] at hm
  simp only [Nat.mul_comm _ w, Nat.mul_add_div hw, Nat.div_eq_of_lt hx, Nat.div_eq_of_lt hx'] at hd
  exact ⟨hm, by omega⟩

theorem position_lt {w h x y : Nat} (hx : x < w) (hy : y < h) : y * w + x < w * h := by
  have : y * w + w ≤ w * h := by
    rw [← Nat.succ_mul, Nat.mul_comm w h]
    exact Nat.mul_le_mul_right w hy
  omega

/-! ### Toggling a list of pixels -/

/-- Every listed pixel toggled, in order. -/
def toggleAll (c : Config) (k : Canvas) (pts : List (Nat × Nat)) : Canvas :=
  pts.foldl (fun k p => togglePixel c k p.1 p.2) k

theorem length_toggleAll (c : Config) (k : Canvas) (pts : List (Nat × Nat)) :
    (toggleAll c k pts).display.length = k.display.length := by
  induction pts generalizing k with
  | nil => rfl
  | cons p pts ih => simpa [toggleAll, togglePixel] using ih (togglePixel c k p.1 p.2)

theorem gridAt_togglePixel {c : Config} {k : Canvas} {px py x y : Nat}
    (hl : k.display.length = c.displayW * c.displayH) (hpx : px < c.displayW) (hpy : py < c.displayH)
    (hx : x < c.displayW) :
    gridAt c (togglePixel c k px py).display x y =
      (gridAt c k.display x y ^^ decide ((x, y) = (px, py))) := by
  have hlt := position_lt hpx hpy
  simp only [gridAt, togglePixel, List.getD_eq_getElem?_getD, List.getElem?_set]
  by_cases h : py * c.displayW + px = y * c.displayW + x
  · obtain ⟨rfl, rfl⟩ := position_inj hpx hx h
    simp [hl, hlt]
  · have hne : (x, y) ≠ (px, py) := by
      rintro ⟨⟩
      exact h rfl
    simp [h, hne]

/-- Toggling distinct pixels: an exclusive or with their set, and a collision where one of them was set. -/
theorem toggleAll_spec {c : Config} {k : Canvas} {pts : List (Nat × Nat)}
    (hl : k.display.length = c.displayW * c.displayH) (hn : pts.Nodup)
    (hp : ∀ p ∈ pts, p.1 < c.displayW ∧ p.2 < c.displayH) :
    (∀ x < c.displayW, ∀ y, gridAt c (toggleAll c k pts).display x y =
        (gridAt c k.display x y ^^ decide ((x, y) ∈ pts))) ∧
      ((toggleAll c k pts).collided = true ↔
        k.collided = true ∨ ∃ p ∈ pts, gridAt c k.display p.1 p.2 = true) := by
  induction pts generalizing k with
  | nil => simp [toggleAll]
  | cons p pts ih =>
    obtain ⟨hp0, hn'⟩ := List.nodup_cons.1 hn
    have hin := hp p (List.mem_cons_self)
    have hl' : (togglePixel c k p.1 p.2).display.length = c.displayW * c.displayH := by
      simpa [togglePixel] using hl
    obtain ⟨ih1, ih2⟩ := ih hl' hn' (fun q hq => hp q (List.mem_cons_of_mem _ hq))
    have hgrid : ∀ q ∈ pts, gridAt c (togglePixel c k p.1 p.2).display q.1 q.2 = gridAt c k.display q.1 q.2 := by
      intro q hq
      rw [gridAt_togglePixel hl hin.1 hin.2 (hp q (List.mem_cons_of_mem _ hq)).1]
      have : (q.1, q.2) ≠ (p.1, p.2) := fun e => hp0 (by rwa [show p = q from e.symm])
      simp [this]
    refine ⟨fun x hx y => ?_, ?_⟩
    · have hstep := ih1 x hx y
      rw [gridAt_togglePixel hl hin.1 hin.2 hx] at hstep
      have hunfold : toggleAll c k (p :: pts) = toggleAll c (togglePixel c k p.1 p.2) pts := rfl
      rw [hunfold, hstep]
      by_cases h1 : (x, y) = (p.1, p.2)
      · simp [h1, hp0]
      · simp [h1, List.mem_cons]
    · have hunfold : toggleAll c k (p :: pts) = toggleAll c (togglePixel c k p.1 p.2) pts := rfl
      have hcol : (togglePixel c k p.1 p.2).collided = (k.collided || gridAt c k.display p.1 p.2) := rfl
      rw [hunfold, ih2, hcol]
      simp only [Bool.or_eq_true, List.mem_cons, exists_eq_or_imp, or_assoc]
      refine or_congr_right (or_congr_right ?_)
      exact ⟨fun ⟨q, hq, h⟩ => ⟨q, hq, (hgrid q hq) ▸ h⟩, fun ⟨q, hq, h⟩ => ⟨q, hq, (hgrid q hq).symm ▸ h⟩⟩

/-! ### The pixels of a sprite -/

/-- The pixels that the set bits of a sprite land on. -/
def spritePoints (c : Config) (x y : Nat) : List Byte → List (Nat × Nat)
  | [] => []
  | row :: rows =>
    (([0, 1, 2, 3, 4, 5, 6, 7].filter (spriteBit row)).map
        fun j => ((x + j) % c.displayW, y % c.displayH)) ++ spritePoints c x (y + 1) rows

theorem drawColumns_eq (c : Config) (x y : Nat) (row : Byte) (js : List Nat) (k : Canvas) :
    drawColumns c x y row js k =
      toggleAll c k ((js.filter (spriteBit row)).map fun j => ((x + j) % c.displayW, y % c.displayH)) := by
  induction js generalizing k with
  | nil => rfl
  | cons j js ih =>
    simp only [drawColumns]
    split_ifs with h
    · rw [ih, List.filter_cons_of_pos h]
      rfl
    · rw [ih, List.filter_cons_of_neg h]

theorem drawRows_eq (c : Config) (x y : Nat) (rows : List Byte) (k : Canvas) :
    drawRows c x y rows k = toggleAll c k (spritePoints c x y rows) := by
  induction rows generalizing y k with
  | nil => rfl
  | cons row rows ih =>
    rw [drawRows, ih, drawColumns_eq, spritePoints]
    simp only [toggleAll, List.foldl_append]

theorem mem_spritePoints (c : Config) (x y : Nat) (rows : List Byte) (px py : Nat) :
    (px, py) ∈ spritePoints c x y rows ↔ spriteCovers c x y rows px py := by
  induction rows generalizing y with
  | nil => simp [spritePoints, spriteCovers]
  | cons row rows ih =>
    have hcols : (px, py) ∈ (([0, 1, 2, 3, 4, 5, 6, 7].filter (spriteBit row)).map
          fun j => ((x + j) % c.displayW, y % c.displayH)) ↔
        ∃ j < 8, spriteBit row j = true ∧ (x + j) % c.displayW = px ∧ y % c.displayH = py := by
      have hmem : ∀ j, j ∈ [0, 1, 2, 3, 4, 5, 6, 7] ↔ j < 8 := by
        intro j
        simp only [List.mem_cons, List.not_mem_nil, or_false]
        omega
      simp only [List.mem_map, List.mem_filter, hmem, Prod.mk.injEq, and_assoc]
    simp only [spritePoints, List.mem_append, hcols, ih, spriteCovers]
    constructor
    · rintro (⟨j, hj, hb, hx, hy⟩ | ⟨r, row', hr, j, hj, hb, hx, hy⟩)
      · exact ⟨0, row, rfl, j, hj, hb, hx, by simpa using hy⟩
      · exact ⟨r + 1, row', by simpa using hr, j, hj, hb, hx, by rw [← hy]; congr 1; omega⟩
    · rintro ⟨r, row', hr, j, hj, hb, hx, hy⟩
      cases r with
      | zero =>
        obtain rfl : row = row' := by simpa using hr
        exact .inl ⟨j, hj, hb, hx, by simpa using hy⟩
      | succ r =>
        exact .inr ⟨r, row', by simpa using hr, j, hj, hb, hx, by rw [← hy]; congr 1; omega⟩

theorem spriteCovers_in_grid {c : Config} {x y : Nat} {rows : List Byte} {px py : Nat} (hw : 0 < c.displayW)
    (hh : 0 < c.displayH) (h : spriteCovers c x y rows px py) : px < c.displayW ∧ py < c.displayH := by
  obtain ⟨r, row, -, j, -, -, rfl, rfl⟩ := h
  exact ⟨Nat.mod_lt _ hw, Nat.mod_lt _ hh⟩

theorem add_mod_ne {m y r : Nat} (h0 : 0 < r) (h : r < m) : (y + r) % m ≠ y % m := by
  intro e
  have h1 : (y + r) % m = (y + 0) % m := e
  have h2 := Nat.ModEq.add_left_cancel' y (show y + r ≡ y + 0 [MOD m] from h1)
  have h3 : r % m = 0 % m := h2
  rw [Nat.mod_eq_of_lt h, Nat.zero_mod] at h3
  omega

/-- No pixel is reached twice by one sprite (R181). -/
theorem nodup_spritePoints {c : Config} (x y : Nat) {rows : List Byte} (hw : 8 ≤ c.displayW)
    (hh : rows.length ≤ c.displayH) : (spritePoints c x y rows).Nodup := by
  induction rows generalizing y with
  | nil => simp [spritePoints]
  | cons row rows ih =>
    rw [List.length_cons] at hh
    refine List.Nodup.append ?_ (ih (y + 1) (by omega)) ?_
    · refine List.Nodup.map_on ?_ (List.Nodup.filter _ (by decide))
      intro i hi j hj hij
      have lt8 : ∀ k, k ∈ ([0, 1, 2, 3, 4, 5, 6, 7].filter (spriteBit row)) → k < 8 := by
        intro k hk
        have := (List.mem_filter.1 hk).1
        simp only [List.mem_cons, List.not_mem_nil, or_false] at this
        omega
      have hi8 := lt8 i hi
      have hj8 := lt8 j hj
      have hx : (x + i) % c.displayW = (x + j) % c.displayW := (Prod.mk.inj hij).1
      have := Nat.ModEq.add_left_cancel' x (show x + i ≡ x + j [MOD c.displayW] from hx)
      have h3 : i % c.displayW = j % c.displayW := this
      rwa [Nat.mod_eq_of_lt (by omega), Nat.mod_eq_of_lt (by omega)] at h3
    · rintro ⟨px, py⟩ h1 h2
      obtain ⟨j, -, hj⟩ := List.mem_map.1 h1
      obtain ⟨r, row', hr, -, -, -, -, hy⟩ := (mem_spritePoints c x (y + 1) rows px py).1 h2
      have hlt : r < rows.length := (List.getElem?_eq_some_iff.1 hr).1
      have e1 : y % c.displayH = py := (Prod.mk.inj hj).2
      rw [show y + 1 + r = y + (r + 1) by omega] at hy
      exact add_mod_ne (m := c.displayH) (y := y) (r := r + 1) (by omega) (by omega) (hy.trans e1.symm)

/-- Everything `drawSprite` does (R181, R184): the grid keeps its size, every pixel becomes the exclusive or of what it
was and whether the sprite covers it, and the flag says whether a covered pixel was set. -/
theorem drawSprite_spec {c : Config} {d : List Bool} {rows : List Byte} (x y : Nat)
    (hl : d.length = c.displayW * c.displayH) (hw : 8 ≤ c.displayW) (hh : 0 < c.displayH)
    (hr : rows.length ≤ c.displayH) :
    (drawSprite c d x y rows).display.length = d.length ∧
      (∀ px < c.displayW, ∀ py, (gridAt c (drawSprite c d x y rows).display px py = true ↔
        ¬ (gridAt c d px py = true ↔ spriteCovers c x y rows px py))) ∧
      ((drawSprite c d x y rows).collided = true ↔
        ∃ px py, spriteCovers c x y rows px py ∧ gridAt c d px py = true) := by
  have hin : ∀ p ∈ spritePoints c x y rows, p.1 < c.displayW ∧ p.2 < c.displayH := fun p hp =>
    spriteCovers_in_grid (by omega) hh ((mem_spritePoints c x y rows p.1 p.2).1 hp)
  obtain ⟨h1, h2⟩ := toggleAll_spec (k := { display := d, collided := false }) hl
    (nodup_spritePoints x y hw hr) hin
  simp only [drawSprite, drawRows_eq]
  refine ⟨length_toggleAll _ _ _, fun px hpx py => ?_, ?_⟩
  · rw [h1 px hpx py]
    by_cases hc : spriteCovers c x y rows px py
    · have := (mem_spritePoints c x y rows px py).2 hc
      simp [hc, this]
    · have := mt (mem_spritePoints c x y rows px py).1 hc
      simp [hc, this]
  · rw [h2]
    simp only [Bool.false_eq_true, false_or, Prod.exists]
    exact ⟨fun ⟨px, py, hp, hg⟩ => ⟨px, py, (mem_spritePoints c x y rows px py).1 hp, hg⟩,
      fun ⟨px, py, hp, hg⟩ => ⟨px, py, (mem_spritePoints c x y rows px py).2 hp, hg⟩⟩

end Sys2Proof.Machine
end

