-- ==== Sys2Proof/Laws/Decode.lean ====
section
/-! SUPPORT. The fields of a word laid out in each format of R83, and of a word put together from its bytes. -/

namespace Sys2Proof

@[simp] theorem regOf_nib (r : Reg) : regOf (nib r) = r := rfl

@[simp] theorem nib_regOf (f : Nibble) : nib (regOf f) = f := rfl

/-! ### The bits of each format -/

theorem getLsbD_formatA (g : Nibble) (nnn : Addr12) (i : Nat) :
    (formatA g nnn).getLsbD i = if i < 12 then nnn.getLsbD i else g.getLsbD (i - 12) :=
  BitVec.getLsbD_append

theorem getLsbD_formatXNN (g : Nibble) (x : Reg) (nn : Byte) (i : Nat) :
    (formatXNN g x nn).getLsbD i =
      if i < 8 then nn.getLsbD i else if i - 8 < 4 then (nib x).getLsbD (i - 8) else g.getLsbD (i - 8 - 4) := by
  refine (BitVec.getLsbD_append (x := g ++ nib x) (y := nn)).trans ?_
  rw [BitVec.getLsbD_append]

theorem getLsbD_formatXYN (g : Nibble) (x y : Reg) (n : Nibble) (i : Nat) :
    (formatXYN g x y n).getLsbD i =
      if i < 4 then n.getLsbD i
      else if i - 4 < 4 then (nib y).getLsbD (i - 4)
      else if i - 4 - 4 < 4 then (nib x).getLsbD (i - 4 - 4) else g.getLsbD (i - 4 - 4 - 4) := by
  refine (BitVec.getLsbD_append (x := g ++ nib x ++ nib y) (y := n)).trans ?_
  rw [BitVec.getLsbD_append, BitVec.getLsbD_append]

theorem getLsbD_wordOfBytes (hi lo : Byte) (i : Nat) :
    (wordOfBytes hi lo).getLsbD i = if i < 8 then lo.getLsbD i else hi.getLsbD (i - 8) :=
  BitVec.getLsbD_append

/-- A bit of a field of a word is a bit of the word. -/
theorem field_eq {w : Word} {k n : Nat} {f : BitVec n} (h : ∀ i < n, w.getLsbD (k + i) = f.getLsbD i) :
    w.extractLsb' k n = f := by
  ext i hi
  rw [BitVec.getElem_extractLsb', h i hi, BitVec.getLsbD_eq_getElem hi]

theorem getLsbD_field {w : Word} {k n i : Nat} (h : i < n) :
    (w.extractLsb' k n).getLsbD i = w.getLsbD (k + i) := by
  simp [h]

/-! ### The fields of each format -/

theorem ofWord_formatA (g : Nibble) (nnn : Addr12) :
    (Operation.ofWord (formatA g nnn)).g = g ∧ (Operation.ofWord (formatA g nnn)).nnn = nnn := by
  refine ⟨field_eq fun i hi => ?_, field_eq fun i hi => ?_⟩ <;>
    rw [getLsbD_formatA] <;> split_ifs <;> first | omega | (congr 1; omega)

theorem ofWord_formatXNN (g : Nibble) (x : Reg) (nn : Byte) :
    (Operation.ofWord (formatXNN g x nn)).g = g ∧ (Operation.ofWord (formatXNN g x nn)).x = nib x ∧
      (Operation.ofWord (formatXNN g x nn)).nn = nn := by
  refine ⟨field_eq fun i hi => ?_, field_eq fun i hi => ?_, field_eq fun i hi => ?_⟩ <;>
    rw [getLsbD_formatXNN] <;> split_ifs <;> first | omega | (congr 1; omega)

theorem ofWord_formatXYN (g : Nibble) (x y : Reg) (n : Nibble) :
    (Operation.ofWord (formatXYN g x y n)).g = g ∧ (Operation.ofWord (formatXYN g x y n)).x = nib x ∧
      (Operation.ofWord (formatXYN g x y n)).y = nib y ∧ (Operation.ofWord (formatXYN g x y n)).n = n := by
  refine ⟨field_eq fun i hi => ?_, field_eq fun i hi => ?_, field_eq fun i hi => ?_, field_eq fun i hi => ?_⟩ <;>
    rw [getLsbD_formatXYN] <;> split_ifs <;> first | omega | (congr 1; omega)

theorem highByte_wordOfBytes (hi lo : Byte) : highByte (wordOfBytes hi lo) = hi := by
  refine field_eq fun i h => ?_
  rw [getLsbD_wordOfBytes, if_neg (by omega), Nat.add_sub_cancel_left]

theorem lowByte_wordOfBytes (hi lo : Byte) : lowByte (wordOfBytes hi lo) = lo := by
  refine field_eq fun i h => ?_
  rw [getLsbD_wordOfBytes, if_pos (by omega), Nat.zero_add]

theorem wordOfBytes_bytes (w : Word) : wordOfBytes (highByte w) (lowByte w) = w := by
  apply BitVec.eq_of_getLsbD_eq
  intro i hi
  rw [getLsbD_wordOfBytes]
  split_ifs with h
  · simp [lowByte, h]
  · simp [highByte, show i - 8 < 8 by omega, show 8 + (i - 8) = i by omega]

/-- A word is the `XYN` layout of its four nibbles. -/
theorem formatXYN_fields (w : Word) :
    formatXYN (Operation.ofWord w).g (regOf (Operation.ofWord w).x) (regOf (Operation.ofWord w).y)
      (Operation.ofWord w).n = w := by
  apply BitVec.eq_of_getLsbD_eq
  intro i hi
  simp only [getLsbD_formatXYN, nib_regOf, Operation.ofWord]
  split_ifs <;> rw [getLsbD_field (by omega)] <;> congr 1 <;> omega

/-- A word is the `XNN` layout of its group, its first register field and its low byte. -/
theorem formatXNN_fields (w : Word) :
    formatXNN (Operation.ofWord w).g (regOf (Operation.ofWord w).x) (Operation.ofWord w).nn = w := by
  apply BitVec.eq_of_getLsbD_eq
  intro i hi
  simp only [getLsbD_formatXNN, nib_regOf, Operation.ofWord]
  split_ifs <;> rw [getLsbD_field (by omega)] <;> congr 1 <;> omega

/-- A word is the `A` layout of its group and its low twelve bits. -/
theorem formatA_fields (w : Word) : formatA (Operation.ofWord w).g (Operation.ofWord w).nnn = w := by
  apply BitVec.eq_of_getLsbD_eq
  intro i hi
  simp only [getLsbD_formatA, Operation.ofWord]
  split_ifs <;> rw [getLsbD_field (by omega)] <;> congr 1 <;> omega

end Sys2Proof
end

