-- ==== Sys2Proof/Laws/Memory.lean ====
section
/-! SUPPORT. The laws of memory: a byte read after a write, and the canonical form kept by every memory operation. -/

namespace Sys2Proof

theorem Config.valid_iff (c : Config) : c.valid = true ↔
    c.fontBase + fontSize ≤ c.userStart ∧ c.userStart ≤ c.userEnd ∧ c.userEnd ≤ memSize ∧
      8 ≤ c.displayW ∧ 16 ≤ c.displayH ∧ 0 < c.timerHz := by
  simp only [Config.valid, decide_eq_true_eq]

end Sys2Proof

namespace Sys2Proof.Machine

namespace Memory

variable (c : Config)

/-! ### Reading after listing and unlisting -/

theorem find_put (a : Nat) (b : Byte) (m : Memory) (k : Nat) :
    find k (put a b m) = if k = a then some b else find k m := by
  induction m with
  | nil => by_cases h : a = k <;> simp [put, find, h, eq_comm]
  | cons p m ih =>
    obtain ⟨q, v⟩ := p
    simp only [put]
    split_ifs with h1 h2 h3 h4 <;> simp only [find, ih] <;> split_ifs <;> first | rfl | omega

theorem find_drop (a : Nat) (m : Memory) (k : Nat) :
    find k (drop a m) = if k = a then none else find k m := by
  induction m with
  | nil => simp [drop, find]
  | cons p m ih =>
    obtain ⟨q, v⟩ := p
    simp only [drop] at ih ⊢
    by_cases h : q = a
    · subst h
      rw [List.filter_cons_of_neg (by simp), ih]
      by_cases hk : k = q <;> simp [find, hk, eq_comm]
    · rw [List.filter_cons_of_pos (by simpa using h)]
      simp only [find, ih]
      split_ifs <;> first | rfl | omega

/-- What a byte reads as after a write. -/
theorem read_write (m : Memory) (a : Nat) (b : Byte) (k : Nat) :
    read c (write c m a b) k = if k = a then b else read c m k := by
  simp only [read, write]
  by_cases hb : b = unlisted c a
  · rw [if_pos hb, find_drop]
    by_cases hk : k = a <;> simp [hk, hb]
  · rw [if_neg hb, find_put]
    by_cases hk : k = a <;> simp [hk]

@[simp] theorem read_write_self (m : Memory) (a : Nat) (b : Byte) : read c (write c m a b) a = b := by
  simp [read_write]

theorem read_write_ne (m : Memory) {a k : Nat} (b : Byte) (h : k ≠ a) :
    read c (write c m a b) k = read c m k := by
  simp [read_write, h]

/-- What a byte reads as after consecutive writes. -/
theorem read_writeAll (m : Memory) (a : Nat) (bs : List Byte) (k : Nat) :
    read c (writeAll c m a bs) k =
      if a ≤ k ∧ k < a + bs.length then bs.getD (k - a) 0#8 else read c m k := by
  induction bs generalizing m a with
  | nil => simp only [writeAll, List.length_nil]; rw [if_neg (by omega)]
  | cons b bs ih =>
    simp only [writeAll, ih, List.length_cons, read_write]
    by_cases h : k = a
    · subst h
      simp
    · by_cases h2 : a + 1 ≤ k ∧ k < a + 1 + bs.length
      · rw [if_pos h2, if_pos (by omega), show k - a = (k - (a + 1)) + 1 by omega]
        rfl
      · rw [if_neg h2, if_neg h, if_neg (by omega)]

/-! ### The canonical form -/

theorem wf_nil : wf c [] := by simp [wf]

theorem mem_put {a : Nat} {b : Byte} {m : Memory} {x : Host.Cell} (h : x ∈ put a b m) : x = (a, b) ∨ x ∈ m := by
  induction m with
  | nil => simpa [put] using h
  | cons p m ih =>
    simp only [put] at h
    split_ifs at h with h1 h2
    · simpa using h
    · rcases List.mem_cons.1 h with h | h
      · exact .inl h
      · exact .inr (List.mem_cons_of_mem _ h)
    · rcases List.mem_cons.1 h with h | h
      · exact .inr (h ▸ List.mem_cons_self)
      · exact (ih h).imp id (List.mem_cons_of_mem _)

theorem pairwise_put (a : Nat) (b : Byte) {m : Memory} (h : m.Pairwise (fun p q => p.1 < q.1)) :
    (put a b m).Pairwise (fun p q => p.1 < q.1) := by
  induction m with
  | nil => simp [put]
  | cons p m ih =>
    obtain ⟨h1, h2⟩ := List.pairwise_cons.1 h
    simp only [put]
    split_ifs with ha hk
    · refine List.pairwise_cons.2 ⟨fun x hx => ?_, h⟩
      rcases List.mem_cons.1 hx with rfl | hx
      · exact ha
      · exact Nat.lt_trans ha (h1 x hx)
    · subst hk
      exact List.pairwise_cons.2 ⟨h1, h2⟩
    · refine List.pairwise_cons.2 ⟨fun x hx => ?_, ih h2⟩
      rcases mem_put hx with rfl | hx
      · simp only at ha hk ⊢
        omega
      · exact h1 x hx

/-- A write to an address that exists keeps the canonical form. -/
theorem wf_write {m : Memory} {a : Nat} (b : Byte) (h : wf c m) (ha : a < memSize) : wf c (write c m a b) := by
  simp only [write]
  split_ifs with hb
  · exact ⟨h.1.filter _, fun x hx => h.2 x (List.mem_filter.1 hx).1⟩
  · refine ⟨pairwise_put a b h.1, fun x hx => ?_⟩
    rcases mem_put hx with rfl | hx
    · exact ⟨ha, hb⟩
    · exact h.2 x hx

/-- Consecutive writes to addresses that exist keep the canonical form. -/
theorem wf_writeAll {m : Memory} {a : Nat} {bs : List Byte} (h : wf c m) (ha : a + bs.length ≤ memSize) :
    wf c (writeAll c m a bs) := by
  induction bs generalizing m a with
  | nil => exact h
  | cons b bs ih =>
    rw [List.length_cons] at ha
    exact ih (wf_write c b h (by omega)) (by omega)

/-- The memory reset keeps the canonical form. -/
theorem wf_clearUser {m : Memory} (h : wf c m) : wf c (clearUser c m) :=
  ⟨h.1.filter _, fun x hx => h.2 x (List.mem_filter.1 hx).1⟩

theorem find_clearUser (m : Memory) (k : Nat) :
    find k (clearUser c m) = if c.userStart ≤ k ∧ k < c.userEnd then none else find k m := by
  induction m with
  | nil => simp [clearUser, find]
  | cons p m ih =>
    obtain ⟨q, v⟩ := p
    simp only [clearUser] at ih ⊢
    by_cases h : c.userStart ≤ q ∧ q < c.userEnd
    · rw [List.filter_cons_of_neg (by simpa using h), ih]
      simp only [find]
      split_ifs <;> first | rfl | omega
    · rw [List.filter_cons_of_pos (by simp; omega)]
      simp only [find, ih]
      split_ifs <;> first | rfl | omega

/-- What a byte reads as after the memory reset: 0x00 in user space (R59). -/
theorem read_clearUser (hv : c.valid = true) (m : Memory) (k : Nat) :
    read c (clearUser c m) k = if c.userStart ≤ k ∧ k < c.userEnd then 0#8 else read c m k := by
  simp only [read, find_clearUser]
  split_ifs with h
  · have : ¬ (c.fontBase ≤ k ∧ k < c.fontBase + fontSize) := by
      have := ((Config.valid_iff c).1 hv).1
      omega
    simp [unlisted, this]
  · rfl

/-- Canonical memories with the same bytes are equal data. -/
theorem eq_of_read_eq {m n : Memory} (hm : wf c m) (hn : wf c n) (h : ∀ k, read c m k = read c n k) : m = n := by
  induction m generalizing n with
  | nil =>
    cases n with
    | nil => rfl
    | cons q n =>
      have := h q.1
      have hq := (hn.2 q (List.mem_cons_self)).2
      simp [read, find] at this
      exact absurd this.symm hq
  | cons p m ih =>
    cases n with
    | nil =>
      have := h p.1
      have hp := (hm.2 p (List.mem_cons_self)).2
      simp [read, find] at this
      exact absurd this hp
    | cons q n =>
      obtain ⟨hm1, hm2⟩ := List.pairwise_cons.1 hm.1
      obtain ⟨hn1, hn2⟩ := List.pairwise_cons.1 hn.1
      have none_of_lt : ∀ (l : Memory) (a : Nat), (∀ x ∈ l, a < x.1) → find a l = none := by
        intro l a hl
        induction l with
        | nil => rfl
        | cons y l ihl =>
          have := hl y (List.mem_cons_self)
          simp only [find]
          rw [if_neg (by omega)]
          exact ihl (fun x hx => hl x (List.mem_cons_of_mem _ hx))
      have hkey : p.1 = q.1 := by
        rcases Nat.lt_trichotomy p.1 q.1 with hlt | heq | hgt
        · have hp := (hm.2 p (List.mem_cons_self)).2
          have := h p.1
          have hn' : find p.1 (q :: n) = none := none_of_lt _ _ (fun x hx => by
            rcases List.mem_cons.1 hx with rfl | hx
            · exact hlt
            · exact Nat.lt_trans hlt (hn1 x hx))
          simp only [read, hn', Option.getD_none] at this
          simp [find] at this
          exact absurd this hp
        · exact heq
        · have hq := (hn.2 q (List.mem_cons_self)).2
          have := h q.1
          have hm' : find q.1 (p :: m) = none := none_of_lt _ _ (fun x hx => by
            rcases List.mem_cons.1 hx with rfl | hx
            · exact hgt
            · exact Nat.lt_trans hgt (hm1 x hx))
          simp only [read, hm', Option.getD_none] at this
          simp [find] at this
          exact absurd this.symm hq
      have hval : p.2 = q.2 := by
        have := h p.1
        simp only [read, find, hkey, if_true, Option.getD_some] at this
        simpa using this
      have hpq : p = q := Prod.ext hkey hval
      subst hpq
      congr 1
      refine ih ⟨hm2, fun x hx => hm.2 x (List.mem_cons_of_mem _ hx)⟩
        ⟨hn2, fun x hx => hn.2 x (List.mem_cons_of_mem _ hx)⟩ (fun k => ?_)
      by_cases hk : p.1 = k
      · subst hk
        simp only [read, none_of_lt m p.1 hm1, none_of_lt n p.1 hn1]
      · have := h k
        simpa only [read, find, if_neg hk] using this

end Memory

end Sys2Proof.Machine
end

