-- ==== Sys2Proof/Laws/Ops.lean ====
section
/-! SUPPORT. One spec lemma per shared operation, which says everything the operation can do: the arbiter, the call
stack, the operand forms, the end of an instruction and the fetch. -/

namespace Sys2Proof.Machine

/-! ### The arbiter -/

theorem inUser_iff (c : Config) (a : Nat) : inUser c a = true ↔ c.userStart ≤ a ∧ a < c.userEnd := by
  simp [inUser]

theorem readByte_spec (s : State) (a : Nat) :
    (inUser s.cfg a = true ∧ readByte s a = .ok (s.byteAt a)) ∨
      (inUser s.cfg a = false ∧ readByte s a = .error (outOfRange a)) := by
  cases h : inUser s.cfg a <;> simp [readByte, h]

theorem writeByte_spec (s : State) (a : Nat) (b : Byte) :
    (inUser s.cfg a = true ∧ writeByte s a b = .done (s.setMem (Memory.write s.cfg s.mem a b))) ∨
      (inUser s.cfg a = false ∧ writeByte s a b = .raised (outOfRange a) s) := by
  cases h : inUser s.cfg a <;> simp [writeByte, h]

theorem readWord_spec (s : State) (a : Nat) :
    (a + 1 < memSize ∧ readWord s a = .ok (wordOfBytes (s.byteAt a) (s.byteAt (a + 1)))) ∨
      (memSize ≤ a + 1 ∧ readWord s a = .error { kind := .malformedWordRead, info := .address a }) := by
  by_cases h : memSize ≤ a + 1
  · exact .inr ⟨h, if_pos h⟩
  · exact .inl ⟨Nat.lt_of_not_le h, if_neg h⟩

theorem readSprite_spec (s : State) (a n : Nat) :
    ((n = 0 ∨ a + n ≤ memSize) ∧ readSprite s a n = .ok ((List.range n).map (fun k => s.byteAt (a + k)))) ∨
      (0 < n ∧ memSize < a + n ∧ readSprite s a n = .error (outOfRange (max a memSize))) := by
  by_cases h : 0 < n ∧ memSize < a + n
  · exact .inr ⟨h.1, h.2, if_pos h⟩
  · exact .inl ⟨by omega, if_neg h⟩

/-- All the writes are in user space: all are made, in order. -/
theorem writeBytes_done {s : State} {a : Nat} {bs : List Byte}
    (h : ∀ k < bs.length, inUser s.cfg (a + k) = true) :
    writeBytes s a bs = .done (s.setMem (Memory.writeAll s.cfg s.mem a bs)) := by
  induction bs generalizing s a with
  | nil => rfl
  | cons b bs ih =>
    have h0 : inUser s.cfg a = true := h 0 (by simp)
    have hs : ∀ k < bs.length, inUser (s.setMem (Memory.write s.cfg s.mem a b)).cfg (a + 1 + k) = true := by
      intro k hk
      have := h (k + 1) (by simpa using hk)
      rwa [show a + 1 + k = a + (k + 1) by omega]
    simp only [writeBytes, writeByte, h0, if_true, ih hs]
    rfl

/-- The first write outside user space faults there: exactly the writes before it are made (R63). -/
theorem writeBytes_raised {s : State} {a k : Nat} {bs : List Byte} (hk : k < bs.length)
    (h : ∀ j < k, inUser s.cfg (a + j) = true) (hf : inUser s.cfg (a + k) = false) :
    writeBytes s a bs =
      .raised (outOfRange (a + k)) (s.setMem (Memory.writeAll s.cfg s.mem a (bs.take k))) := by
  induction bs generalizing s a k with
  | nil => simp at hk
  | cons b bs ih =>
    cases k with
    | zero =>
      have h0 : inUser s.cfg a = false := hf
      simp only [writeBytes, writeByte, h0]
      rfl
    | succ k =>
      have h0 : inUser s.cfg a = true := h 0 (by omega)
      have hs : ∀ j < k, inUser (s.setMem (Memory.write s.cfg s.mem a b)).cfg (a + 1 + j) = true := by
        intro j hj
        have := h (j + 1) (by omega)
        rwa [show a + 1 + j = a + (j + 1) by omega]
      have hf' : inUser (s.setMem (Memory.write s.cfg s.mem a b)).cfg (a + 1 + k) = false := by
        rwa [show a + 1 + k = a + (k + 1) by omega]
      simp only [writeBytes, writeByte, h0, if_true, ih (by simpa using hk) hs hf']
      rw [show a + 1 + k = a + (k + 1) by omega]
      rfl

/-- What a sequence of reads into registers leaves, when no read faults. -/
def loadedRegs (s : State) (a : Nat) : List Reg → State
  | [] => s
  | x :: xs => loadedRegs (s.writeV x (s.byteAt a)) (a + 1) xs

theorem readIntoRegs_done {s : State} {a : Nat} {xs : List Reg}
    (h : ∀ k < xs.length, inUser s.cfg (a + k) = true) :
    readIntoRegs s a xs = .done (loadedRegs s a xs) := by
  induction xs generalizing s a with
  | nil => rfl
  | cons x xs ih =>
    have h0 : inUser s.cfg a = true := h 0 (by simp)
    simp only [readIntoRegs, readByte, h0, if_true, loadedRegs]
    refine ih (fun k hk => ?_)
    have := h (k + 1) (by simpa using hk)
    rwa [show a + 1 + k = a + (k + 1) by omega]

theorem readIntoRegs_raised {s : State} {a k : Nat} {xs : List Reg} (hk : k < xs.length)
    (h : ∀ j < k, inUser s.cfg (a + j) = true) (hf : inUser s.cfg (a + k) = false) :
    readIntoRegs s a xs = .raised (outOfRange (a + k)) (loadedRegs s a (xs.take k)) := by
  induction xs generalizing s a k with
  | nil => simp at hk
  | cons x xs ih =>
    cases k with
    | zero =>
      have h0 : inUser s.cfg a = false := hf
      simp only [readIntoRegs, readByte, h0]
      rfl
    | succ k =>
      have h0 : inUser s.cfg a = true := h 0 (by omega)
      have hf' : inUser (s.writeV x (s.byteAt a)).cfg (a + 1 + k) = false := by
        rwa [show a + 1 + k = a + (k + 1) by omega]
      simp only [readIntoRegs, readByte, h0, if_true]
      rw [ih (by simpa using hk) (fun j hj => ?_) hf', show a + 1 + k = a + (k + 1) by omega]
      · rfl
      · have := h (j + 1) (by omega)
        rwa [show a + 1 + j = a + (j + 1) by omega]

/-- Reads into registers change the register file alone. -/
theorem loadedRegs_frame (s : State) (a : Nat) (xs : List Reg) :
    loadedRegs s a xs = { s with v := (loadedRegs s a xs).v } := by
  induction xs generalizing s a with
  | nil => rfl
  | cons x xs ih =>
    simp only [loadedRegs]
    rw [ih]
    rfl

theorem readV_loadedRegs_of_notMem {s : State} {a : Nat} {xs : List Reg} {r : Reg} (h : r ∉ xs) :
    (loadedRegs s a xs).readV r = s.readV r := by
  induction xs generalizing s a with
  | nil => rfl
  | cons x xs ih =>
    rw [List.mem_cons, not_or] at h
    rw [loadedRegs, ih h.2, State.readV_writeV_ne _ _ _ h.1]

/-- The k-th register of a list without repeats takes the byte at `a + k`. -/
theorem readV_loadedRegs {s : State} {a k : Nat} {xs : List Reg} {r : Reg} (hn : xs.Nodup) (hk : xs[k]? = some r) :
    (loadedRegs s a xs).readV r = s.byteAt (a + k) := by
  induction xs generalizing s a k with
  | nil => simp at hk
  | cons x xs ih =>
    obtain ⟨hx, hn'⟩ := List.nodup_cons.1 hn
    cases k with
    | zero =>
      obtain rfl : x = r := by simpa using hk
      rw [loadedRegs, readV_loadedRegs_of_notMem hx, State.readV_writeV_self, Nat.add_zero]
    | succ k =>
      rw [loadedRegs, ih hn' (by simpa using hk), State.byteAt_writeV, show a + 1 + k = a + (k + 1) by omega]

/-- Byte writes end, or fault at one of their addresses; either way they change memory alone. -/
theorem writeBytes_cases (s : State) (a : Nat) (bs : List Byte) :
    (∃ m, writeBytes s a bs = .done (s.setMem m)) ∨
      ∃ m k, writeBytes s a bs = .raised (outOfRange (a + k)) (s.setMem m) := by
  induction bs generalizing s a with
  | nil => exact .inl ⟨s.mem, rfl⟩
  | cons b bs ih =>
    rcases writeByte_spec s a b with ⟨-, h⟩ | ⟨-, h⟩
    · simp only [writeBytes, h]
      rcases ih (s.setMem (Memory.write s.cfg s.mem a b)) (a + 1) with ⟨m, h'⟩ | ⟨m, k, h'⟩
      · exact .inl ⟨m, h'⟩
      · exact .inr ⟨m, k + 1, by rw [h', show a + 1 + k = a + (k + 1) by omega]; rfl⟩
    · exact .inr ⟨s.mem, 0, by simp only [writeBytes, h]; rfl⟩

/-- Reads into registers end, or fault at one of their addresses; either way they change the register file alone. -/
theorem readIntoRegs_cases (s : State) (a : Nat) (xs : List Reg) :
    (∃ v, readIntoRegs s a xs = .done { s with v := v }) ∨
      ∃ v k, readIntoRegs s a xs = .raised (outOfRange (a + k)) { s with v := v } := by
  induction xs generalizing s a with
  | nil => exact .inl ⟨s.v, rfl⟩
  | cons x xs ih =>
    rcases readByte_spec s a with ⟨-, h⟩ | ⟨-, h⟩
    · simp only [readIntoRegs, h]
      rcases ih (s.writeV x (s.byteAt a)) (a + 1) with ⟨v, h'⟩ | ⟨v, k, h'⟩
      · exact .inl ⟨v, h'⟩
      · exact .inr ⟨v, k + 1, by rw [h', show a + 1 + k = a + (k + 1) by omega]; rfl⟩
    · exact .inr ⟨s.v, 0, by simp only [readIntoRegs, h]; rfl⟩

/-! ### The range of registers -/

theorem length_regsUpTo (x : Reg) : (regsUpTo x).length = x.val + 1 := by
  revert x; decide

theorem nodup_regsUpTo (x : Reg) : (regsUpTo x).Nodup := by
  revert x; decide

theorem mem_regsUpTo (x r : Reg) : r ∈ regsUpTo x ↔ r ≤ x := by
  revert x r; decide

theorem getElem?_regsUpTo (x r : Reg) (h : r ≤ x) : (regsUpTo x)[r.val]? = some r := by
  revert x r; decide

theorem take_regsUpTo (x k : Reg) (h : k ≤ x) (r : Reg) : r ∈ (regsUpTo x).take k.val ↔ r < k := by
  revert x k r; decide

/-! ### The call stack -/

theorem push_spec (s : State) (a : Word) :
    (s.stack.length < s.cfg.stackDepth ∧ push s a = .ok (s.setStack (s.stack ++ [a]))) ∨
      (s.cfg.stackDepth ≤ s.stack.length ∧ push s a = .error { kind := .stackOverflow, info := .none }) := by
  by_cases h : s.cfg.stackDepth ≤ s.stack.length
  · exact .inr ⟨h, if_pos h⟩
  · exact .inl ⟨Nat.lt_of_not_le h, if_neg h⟩

theorem pop_spec (s : State) :
    (∃ l a, s.stack = l ++ [a] ∧ pop s = .ok (a, s.setStack l)) ∨
      (s.stack = [] ∧ pop s = .error { kind := .stackUnderflow, info := .none }) := by
  rcases List.eq_nil_or_concat s.stack with h | ⟨l, a, h⟩
  · exact .inr ⟨h, by simp [pop, h]⟩
  · rw [List.concat_eq_append] at h
    exact .inl ⟨l, a, h, by simp [pop, h]⟩

/-! ### The end of an instruction, the fetch and the CPU step -/

@[simp] theorem finish_done (s : State) : finish (.done s) = .next s.advance := rfl

@[simp] theorem finish_raised (r : Raise) (s : State) : finish (.raised r s) = .next (enterFault r s) := rfl

theorem fetch_ok {s : State} (h : s.pc.toNat + 1 < memSize) :
    fetch s = .ok (wordOfBytes (s.byteAt s.pc.toNat) (s.byteAt (s.pc.toNat + 1))) :=
  if_neg (by omega)

theorem fetch_error {s : State} (h : memSize ≤ s.pc.toNat + 1) :
    fetch s = .error { kind := .malformedWordRead, info := .address s.pc.toNat } :=
  if_pos h

/-- The three things a CPU step can be: a fetch fault, a decode fault, or the decoded instruction (R116, R243). -/
theorem cpuStep_cases (s : State) :
    (memSize ≤ s.pc.toNat + 1 ∧
        cpuStep s = .next (enterFault { kind := .malformedWordRead, info := .address s.pc.toNat } s)) ∨
      (∃ w e, fetch s = .ok w ∧ decodeWord w = .error e ∧
        cpuStep s = .next (enterFault (malformedInstruction w) s)) ∨
      (∃ w i, fetch s = .ok w ∧ decodeWord w = .ok i ∧ cpuStep s = exec i s) := by
  by_cases h : memSize ≤ s.pc.toNat + 1
  · exact .inl ⟨h, by simp only [cpuStep, fetch_error h]⟩
  · have hf := fetch_ok (s := s) (by omega)
    cases hd : decodeWord (wordOfBytes (s.byteAt s.pc.toNat) (s.byteAt (s.pc.toNat + 1))) with
    | error e => exact .inr (.inl ⟨_, e, hf, hd, by simp only [cpuStep, hf, hd]⟩)
    | ok i => exact .inr (.inr ⟨_, i, hf, hd, by simp only [cpuStep, hf, hd]⟩)

/-- The CPU's turn of a Running engine is its step. -/
theorem step_cpu {s : State} (hv : s.cfg.valid = true) (he : s.engine = .running) (hn : nextTurn s = .cpu) :
    step s = cpuStep (popTurn s) := by
  simp [step, stepBody, takeTurn, cpuTurn, hv, he, hn]

/-- A step is the next turn, and happens in a valid configuration alone. -/
theorem step_next {s t : State} (h : step s = .next t) :
    s.cfg.valid = true ∧ takeTurn (nextTurn s) (popTurn s) = .next t := by
  by_cases hv : s.cfg.valid = true
  · exact ⟨hv, by simpa [step, stepBody, hv] using h⟩
  · simp [step, hv] at h

/-- A run begins with a step. -/
theorem run_succ {s t : State} (n : Nat) (h : step s = .next t) :
    Sys2Proof.core.run (n + 1) s = Sys2Proof.core.run n t := by
  have h' : Sys2Proof.core.step s = .next t := h
  exact (Host.Core.run.eq_def Sys2Proof.core (n + 1) s).trans (by simp only [h'])

end Sys2Proof.Machine
end

