-- ==== Sys2Proof/Laws/PerInstr.lean ====
section
/-! SUPPORT. Statements made per instruction, as syntax: the opcode group of the encoded word is the one R85 gives the
instruction. -/

namespace Sys2Proof.Laws.EncodesGroup

/-- The opcode group of R85's pattern. -/
def groupOf : Instr → Nat
  | .cls => 0x0
  | .ret => 0x0
  | .jp _ => 0x1
  | .call _ => 0x2
  | .seImm _ _ => 0x3
  | .sneImm _ _ => 0x4
  | .seReg _ _ => 0x5
  | .ldImm _ _ => 0x6
  | .addImm _ _ => 0x7
  | .ldReg _ _ => 0x8
  | .orReg _ _ => 0x8
  | .andReg _ _ => 0x8
  | .xorReg _ _ => 0x8
  | .addReg _ _ => 0x8
  | .sub _ _ => 0x8
  | .shr _ _ => 0x8
  | .subn _ _ => 0x8
  | .shl _ _ => 0x8
  | .sneReg _ _ => 0x9
  | .ldI _ => 0xA
  | .jpV0 _ => 0xB
  | .rnd _ _ => 0xC
  | .drw _ _ _ => 0xD
  | .skp _ => 0xE
  | .sknp _ => 0xE
  | .ldVxDt _ => 0xF
  | .ldVxK _ => 0xF
  | .ldDtVx _ => 0xF
  | .ldStVx _ => 0xF
  | .addI _ => 0xF
  | .ldF _ => 0xF
  | .ldB _ => 0xF
  | .ldMemVx _ => 0xF
  | .ldVxMem _ => 0xF

/-- The encoded word's opcode group is the instruction's. -/
def Statement (i : Instr) : Prop := (Operation.ofWord (encode i)).g.toNat = groupOf i

theorem cls : Statement .cls := rfl
theorem ret : Statement .ret := rfl
theorem jp (nnn : Addr12) : Statement (.jp nnn) := congrArg BitVec.toNat (ofWord_formatA _ nnn).1
theorem call (nnn : Addr12) : Statement (.call nnn) := congrArg BitVec.toNat (ofWord_formatA _ nnn).1
theorem ldI (nnn : Addr12) : Statement (.ldI nnn) := congrArg BitVec.toNat (ofWord_formatA _ nnn).1
theorem jpV0 (nnn : Addr12) : Statement (.jpV0 nnn) := congrArg BitVec.toNat (ofWord_formatA _ nnn).1
theorem seImm (x : Reg) (nn : Byte) : Statement (.seImm x nn) := congrArg BitVec.toNat (ofWord_formatXNN _ x nn).1
theorem sneImm (x : Reg) (nn : Byte) : Statement (.sneImm x nn) := congrArg BitVec.toNat (ofWord_formatXNN _ x nn).1
theorem ldImm (x : Reg) (nn : Byte) : Statement (.ldImm x nn) := congrArg BitVec.toNat (ofWord_formatXNN _ x nn).1
theorem addImm (x : Reg) (nn : Byte) : Statement (.addImm x nn) := congrArg BitVec.toNat (ofWord_formatXNN _ x nn).1
theorem rnd (x : Reg) (nn : Byte) : Statement (.rnd x nn) := congrArg BitVec.toNat (ofWord_formatXNN _ x nn).1
theorem seReg (x y : Reg) : Statement (.seReg x y) := congrArg BitVec.toNat (ofWord_formatXYN _ x y _).1
theorem ldReg (x y : Reg) : Statement (.ldReg x y) := congrArg BitVec.toNat (ofWord_formatXYN _ x y _).1
theorem orReg (x y : Reg) : Statement (.orReg x y) := congrArg BitVec.toNat (ofWord_formatXYN _ x y _).1
theorem andReg (x y : Reg) : Statement (.andReg x y) := congrArg BitVec.toNat (ofWord_formatXYN _ x y _).1
theorem xorReg (x y : Reg) : Statement (.xorReg x y) := congrArg BitVec.toNat (ofWord_formatXYN _ x y _).1
theorem addReg (x y : Reg) : Statement (.addReg x y) := congrArg BitVec.toNat (ofWord_formatXYN _ x y _).1
theorem sub (x y : Reg) : Statement (.sub x y) := congrArg BitVec.toNat (ofWord_formatXYN _ x y _).1
theorem shr (x y : Reg) : Statement (.shr x y) := congrArg BitVec.toNat (ofWord_formatXYN _ x y _).1
theorem subn (x y : Reg) : Statement (.subn x y) := congrArg BitVec.toNat (ofWord_formatXYN _ x y _).1
theorem shl (x y : Reg) : Statement (.shl x y) := congrArg BitVec.toNat (ofWord_formatXYN _ x y _).1
theorem sneReg (x y : Reg) : Statement (.sneReg x y) := congrArg BitVec.toNat (ofWord_formatXYN _ x y _).1
theorem drw (x y : Reg) (n : Nat) : Statement (.drw x y n) := congrArg BitVec.toNat (ofWord_formatXYN _ x y _).1
theorem skp (x : Reg) : Statement (.skp x) := congrArg BitVec.toNat (ofWord_formatXNN _ x _).1
theorem sknp (x : Reg) : Statement (.sknp x) := congrArg BitVec.toNat (ofWord_formatXNN _ x _).1
theorem ldVxDt (x : Reg) : Statement (.ldVxDt x) := congrArg BitVec.toNat (ofWord_formatXNN _ x _).1
theorem ldVxK (x : Reg) : Statement (.ldVxK x) := congrArg BitVec.toNat (ofWord_formatXNN _ x _).1
theorem ldDtVx (x : Reg) : Statement (.ldDtVx x) := congrArg BitVec.toNat (ofWord_formatXNN _ x _).1
theorem ldStVx (x : Reg) : Statement (.ldStVx x) := congrArg BitVec.toNat (ofWord_formatXNN _ x _).1
theorem addI (x : Reg) : Statement (.addI x) := congrArg BitVec.toNat (ofWord_formatXNN _ x _).1
theorem ldF (x : Reg) : Statement (.ldF x) := congrArg BitVec.toNat (ofWord_formatXNN _ x _).1
theorem ldB (x : Reg) : Statement (.ldB x) := congrArg BitVec.toNat (ofWord_formatXNN _ x _).1
theorem ldMemVx (x : Reg) : Statement (.ldMemVx x) := congrArg BitVec.toNat (ofWord_formatXNN _ x _).1
theorem ldVxMem (x : Reg) : Statement (.ldVxMem x) := congrArg BitVec.toNat (ofWord_formatXNN _ x _).1

end Sys2Proof.Laws.EncodesGroup
end

