-- ==== Sys2Proof/Laws/Step.lean ====
section
/-! SUPPORT. What one step can do, said once: the turns of the agents and of the host, and the effect that any
instruction has on the parts of State that the whole-machine claims are about. -/

namespace Sys2Proof.Machine

/-! ### The turns -/

theorem step_delayTick {s : State} (hv : s.cfg.valid = true) (hn : nextTurn s = .delayTick) :
    step s = .next (delayTick (popTurn s)) := by
  simp [step, stepBody, takeTurn, hv, hn]

theorem step_soundTick {s : State} (hv : s.cfg.valid = true) (hn : nextTurn s = .soundTick) :
    step s = .next (soundTick (popTurn s)) := by
  simp [step, stepBody, takeTurn, hv, hn]

theorem step_host {s : State} {a : HostAction} (hv : s.cfg.valid = true) (hn : nextTurn s = .host a) :
    step s = .next (hostStep a (popTurn s)) := by
  simp [step, stepBody, takeTurn, hv, hn]

/-- What a host action does, one case for each action that the engine's state accepts; otherwise nothing (R263). -/
theorem hostStep_cases (a : HostAction) (s : State) :
    (∃ bytes, a = .load bytes ∧ s.engine = .idle ∧ hostStep a s = loadBody bytes s) ∨
      (∃ hz batch, a = .run hz batch ∧ s.engine = .idle ∧ hostStep a s = { s with engine := .running }) ∨
      (a = .cancel ∧ s.engine = .running ∧ hostStep a s = { s with engine := .halted }) ∨
      (a = .reset ∧ s.engine ≠ .running ∧ hostStep a s = resetBody s) ∨
      (∃ k, a = .writeKey k ∧ hostStep a s = { s with key := k }) ∨
      hostStep a s = s := by
  cases a with
  | load bytes =>
    by_cases h : s.engine = .idle
    · exact .inl ⟨bytes, rfl, h, if_pos h⟩
    · exact .inr (.inr (.inr (.inr (.inr (if_neg h)))))
  | run hz batch =>
    by_cases h : s.engine = .idle
    · exact .inr (.inl ⟨hz, batch, rfl, h, if_pos h⟩)
    · exact .inr (.inr (.inr (.inr (.inr (if_neg h)))))
  | cancel =>
    by_cases h : s.engine = .running
    · exact .inr (.inr (.inl ⟨rfl, h, if_pos h⟩))
    · exact .inr (.inr (.inr (.inr (.inr (if_neg h)))))
  | reset =>
    by_cases h : s.engine = .running
    · exact .inr (.inr (.inr (.inr (.inr (if_pos h)))))
    · exact .inr (.inr (.inr (.inl ⟨rfl, h, if_neg h⟩)))
  | writeKey k => exact .inr (.inr (.inr (.inr (.inl ⟨k, rfl, rfl⟩))))
  | snapshot => exact .inr (.inr (.inr (.inr (.inr rfl))))

/-- What a byte reads as after the loader's copy (R58). -/
theorem byteAt_loadBody (bytes : List Byte) (s : State) (a : Nat) :
    (loadBody bytes s).byteAt a =
      if s.cfg.userStart ≤ a ∧ a < s.cfg.userStart + (bytes.take (s.cfg.userEnd - s.cfg.userStart)).length then
        (bytes.take (s.cfg.userEnd - s.cfg.userStart)).getD (a - s.cfg.userStart) 0#8
      else s.byteAt a :=
  Memory.read_writeAll s.cfg s.mem s.cfg.userStart _ a

/-- What a byte reads as after the explicit reset (R59, R281). -/
theorem byteAt_resetBody {s : State} (hv : s.cfg.valid = true) (a : Nat) :
    (resetBody s).byteAt a = if s.cfg.userStart ≤ a ∧ a < s.cfg.userEnd then 0#8 else s.byteAt a :=
  Memory.read_clearUser s.cfg hv s.mem a

/-- A grid with every pixel off. -/
theorem State.pixel_blank {s : State} {n : Nat} (h : s.display = List.replicate n false) (x y : Nat) :
    s.pixel x y = false := by
  simp only [State.pixel, h, List.getD_eq_getElem?_getD, List.getElem?_replicate]
  split <;> simp

/-! ### What any instruction does -/

/-- Byte writes keep memory canonical and the reserved region as it is, however far they come. -/
theorem writeBytes_keeps (s : State) (a : Nat) (bs : List Byte) :
    ∃ m, (writeBytes s a bs = .done (s.setMem m) ∨ ∃ r, writeBytes s a bs = .raised r (s.setMem m)) ∧
      (s.cfg.userEnd ≤ memSize → Memory.wf s.cfg s.mem → Memory.wf s.cfg m) ∧
      ∀ k < s.cfg.userStart, Memory.read s.cfg m k = s.byteAt k := by
  induction bs generalizing s a with
  | nil => exact ⟨s.mem, .inl rfl, fun _ h => h, fun _ _ => rfl⟩
  | cons b bs ih =>
    rcases writeByte_spec s a b with ⟨hu, h⟩ | ⟨-, h⟩
    · obtain ⟨m, h', hw, hr⟩ := ih (s.setMem (Memory.write s.cfg s.mem a b)) (a + 1)
      have hu' := (inUser_iff _ _).1 hu
      refine ⟨m, ?_, fun he hs => hw he (Memory.wf_write s.cfg b hs (by omega)), fun k hk => ?_⟩
      · simp only [writeBytes, h]
        exact h'
      · rw [show s.cfg = (s.setMem (Memory.write s.cfg s.mem a b)).cfg from rfl, hr k hk]
        exact Memory.read_write_ne s.cfg s.mem b (by omega)
    · exact ⟨s.mem, .inr ⟨_, by simp only [writeBytes, h]; rfl⟩, fun _ h => h, fun _ _ => rfl⟩

/-- The effect that the whole-machine claims are about, from `s` to `t`: the turns to come are kept; the stack is kept, pushed or popped; the grid
keeps its size; memory stays canonical, and its reserved region as it is; the engine, the fault record and the
notifications change by fault entry alone; and where PC can come to stand. -/
structure Effect (s t : State) : Prop where
  cfg_eq : t.cfg = s.cfg
  schedule_eq : t.schedule = s.schedule
  order_eq : t.order = s.order
  stack_eq : t.stack = s.stack ∨ (∃ a, s.stack = t.stack ++ [a]) ∨
    (t.stack = s.stack ++ [s.pc + 2#16] ∧ s.stack.length < s.cfg.stackDepth)
  grid_size : s.cfg.valid = true → s.display.length = s.cfg.displayW * s.cfg.displayH →
    t.display.length = s.cfg.displayW * s.cfg.displayH
  mem_wf : s.cfg.userEnd ≤ memSize → Memory.wf s.cfg s.mem → Memory.wf s.cfg t.mem
  reserved_eq : ∀ a < s.cfg.userStart, t.byteAt a = s.byteAt a
  fault_entry : (t.engine = s.engine ∧ t.fault = s.fault ∧ t.events = s.events) ∨
    ∃ kind info, State.faultedWith kind info s t
  pc_bound : t.pc = s.pc ∨ t.pc = s.pc + 2#16 ∨ t.pc = s.pc + 4#16 ∨ t.pc.toNat ≤ 0x10FE ∨ t.pc ∈ s.stack

/-- An instruction that touches neither the stack, nor the grid, nor memory, and does not fault. -/
theorem Effect.plain {s t : State} (hc : t.cfg = s.cfg) (hl : t.schedule = s.schedule) (ho : t.order = s.order) (hs : t.stack = s.stack) (hd : t.display = s.display)
    (hm : t.mem = s.mem) (he : t.engine = s.engine) (hf : t.fault = s.fault) (hv : t.events = s.events)
    (hp : t.pc = s.pc ∨ t.pc = s.pc + 2#16 ∨ t.pc = s.pc + 4#16 ∨ t.pc.toNat ≤ 0x10FE) : Effect s t where
  cfg_eq := hc
  schedule_eq := hl
  order_eq := ho
  stack_eq := .inl hs
  grid_size := fun _ h => hd ▸ h
  mem_wf := fun _ h => hm ▸ h
  reserved_eq := fun a _ => by simp only [State.byteAt, hc, hm]
  fault_entry := .inl ⟨he, hf, hv⟩
  pc_bound := by rcases hp with h | h | h | h <;> simp [h]

/-- Fault entry after an effect that left PC, the engine and the notifications as they were. -/
theorem Effect.faulted {s u : State} (h : Effect s u) (hp : u.pc = s.pc) (hv : u.events = s.events) (r : Raise) :
    Effect s (enterFault r u) where
  cfg_eq := h.cfg_eq
  schedule_eq := h.schedule_eq
  order_eq := h.order_eq
  stack_eq := by
    rcases h.stack_eq with h' | h' | h'
    · exact .inl h'
    · exact .inr (.inl h')
    · exact .inr (.inr h')
  grid_size := h.grid_size
  mem_wf := h.mem_wf
  reserved_eq := h.reserved_eq
  fault_entry := .inr ⟨r.kind, r.info, by simp [State.faultedWith, faultRecord, hp, hv]⟩
  pc_bound := .inl (by simp [hp])

/-- Byte writes, then the advance or fault entry. -/
theorem Effect.storing (s : State) (a : Nat) (bs : List Byte) :
    ∃ t, finish (writeBytes s a bs) = .next t ∧ Effect s t := by
  obtain ⟨m, h, hw, hr⟩ := writeBytes_keeps s a bs
  have hm : Effect s (s.setMem m) :=
    { cfg_eq := rfl, schedule_eq := rfl, order_eq := rfl, stack_eq := .inl rfl, grid_size := fun _ h => h, mem_wf := hw, reserved_eq := hr,
      fault_entry := .inl ⟨rfl, rfl, rfl⟩, pc_bound := .inl rfl }
  rcases h with h | ⟨r, h⟩
  · exact ⟨(s.setMem m).advance, by rw [h, finish_done], { hm with
      fault_entry := .inl ⟨rfl, rfl, rfl⟩, pc_bound := .inr (.inl rfl) }⟩
  · exact ⟨_, by rw [h, finish_raised], hm.faulted rfl rfl r⟩

/-- Every instruction has this effect. -/
theorem exec_effect (i : Instr) (s : State) : ∃ t, exec i s = .next t ∧ Effect s t := by
  have base : Effect s s := Effect.plain rfl rfl rfl rfl rfl rfl rfl rfl rfl (.inl rfl)
  have skip : ∀ c, Effect s (s.skipIf c) := fun c =>
    Effect.plain rfl rfl rfl rfl rfl rfl rfl rfl rfl (by cases c <;> simp)
  cases i <;> simp only [exec]
  case cls => exact ⟨_, rfl, { base with
    grid_size := fun _ _ => by simp [requestRefresh, clearDisplay]
    fault_entry := .inl ⟨rfl, rfl, rfl⟩
    pc_bound := .inr (.inl rfl) }⟩
  case ret =>
    rcases pop_spec s with ⟨l, a, h, e⟩ | ⟨-, e⟩ <;> simp only [execRet, e]
    · exact ⟨_, rfl, { base with
        stack_eq := .inr (.inl ⟨a, h⟩)
        fault_entry := .inl ⟨rfl, rfl, rfl⟩
        pc_bound := .inr (.inr (.inr (.inr (by simp [h])))) }⟩
    · exact ⟨_, rfl, base.faulted rfl rfl _⟩
  case call nnn =>
    rcases push_spec s (s.pc + 2#16) with ⟨h, e⟩ | ⟨-, e⟩ <;> simp only [execCall, e]
    · refine ⟨_, rfl, { base with
        stack_eq := .inr (.inr ⟨rfl, h⟩)
        fault_entry := .inl ⟨rfl, rfl, rfl⟩
        pc_bound := .inr (.inr (.inr (.inl ?_))) }⟩
      have := nnn.isLt
      simp [addressOf]
      omega
    · exact ⟨_, rfl, base.faulted rfl rfl _⟩
  case jp nnn =>
    refine ⟨_, rfl, Effect.plain rfl rfl rfl rfl rfl rfl rfl rfl rfl (.inr (.inr (.inr ?_)))⟩
    have := nnn.isLt
    simp [addressOf]
    omega
  case jpV0 nnn =>
    refine ⟨_, rfl, Effect.plain rfl rfl rfl rfl rfl rfl rfl rfl rfl (.inr (.inr (.inr ?_)))⟩
    have := nnn.isLt
    have := (s.readV 0).isLt
    simp [offsetAddress, addressOf]
    omega
  case drw x y n =>
    rcases readSprite_spec (s.writeV vf 0#8) s.i.toNat n with ⟨-, e⟩ | ⟨-, -, e⟩ <;> simp only [execDrw, e]
    · refine ⟨_, rfl, { base with
        grid_size := fun _ hd => ?_
        fault_entry := .inl ⟨rfl, rfl, rfl⟩
        pc_bound := .inr (.inl rfl) }⟩
      simp only [State.advance_display, drawFetched, requestRefresh, State.setDt_display, State.writeV_display,
        State.setDisplay_display, drawSprite, drawRows_eq, length_toggleAll]
      exact hd
    · exact ⟨_, rfl, Effect.faulted (u := s.writeV vf 0#8) { base with } rfl rfl _⟩
  case ldVxK x =>
    cases h : s.key <;> simp only [execLdVxK, h]
    · exact ⟨_, rfl, base⟩
    · exact ⟨_, rfl, Effect.plain rfl rfl rfl rfl rfl rfl rfl rfl rfl (.inr (.inl rfl))⟩
  case ldB x => exact Effect.storing s _ _
  case ldMemVx x => exact Effect.storing s _ _
  case ldVxMem x =>
    rcases readIntoRegs_cases s s.i.toNat (regsUpTo x) with ⟨v, e⟩ | ⟨v, k, e⟩ <;> simp only [execLdVxMem, e]
    · exact ⟨_, rfl, Effect.plain rfl rfl rfl rfl rfl rfl rfl rfl rfl (.inr (.inl rfl))⟩
    · exact ⟨_, rfl, Effect.faulted (u := { s with v := v }) { base with } rfl rfl _⟩
  all_goals first
    | exact ⟨_, rfl, skip _⟩
    | exact ⟨_, rfl, Effect.plain rfl rfl rfl rfl rfl rfl rfl rfl rfl (.inr (.inl rfl))⟩

/-! ### Runs -/

/-- No turn changes the configuration or what is to come of the turns. -/
theorem takeTurn_total (t : Turn) (s : State) :
    ∃ u, takeTurn t s = .next u ∧ u.cfg = s.cfg ∧ u.schedule = s.schedule ∧ u.order = s.order := by
  cases t with
  | cpu =>
    by_cases h : s.engine = .running
    · simp only [takeTurn, cpuTurn, if_pos h]
      rcases cpuStep_cases s with ⟨-, e⟩ | ⟨_, _, -, -, e⟩ | ⟨_, i, -, -, e⟩
      · exact ⟨_, e, rfl, rfl, rfl⟩
      · exact ⟨_, e, rfl, rfl, rfl⟩
      · obtain ⟨u, hu, he⟩ := exec_effect i s
        exact ⟨u, e.trans hu, he.cfg_eq, he.schedule_eq, he.order_eq⟩
    · exact ⟨s, by simp only [takeTurn, cpuTurn, if_neg h], rfl, rfl, rfl⟩
  | delayTick =>
    refine ⟨_, rfl, ?_⟩
    unfold delayTick delayTickBody
    split <;> (try split) <;> exact ⟨rfl, rfl, rfl⟩
  | soundTick =>
    refine ⟨_, rfl, ?_⟩
    unfold soundTick soundTickBody
    split
    · dsimp only
      split <;> exact ⟨rfl, rfl, rfl⟩
    · exact ⟨rfl, rfl, rfl⟩
  | host a =>
    refine ⟨_, rfl, ?_⟩
    rcases hostStep_cases a s with ⟨_, -, -, e⟩ | ⟨_, _, -, -, e⟩ | ⟨-, -, e⟩ | ⟨-, -, e⟩ | ⟨_, -, e⟩ | e <;> rw [e] <;>
      exact ⟨rfl, rfl, rfl⟩

/-- A step in a valid configuration answers a next state, whose configuration is the same and whose turns to come are
those after the one taken. -/
theorem step_total {s : State} (hv : s.cfg.valid = true) :
    ∃ t, step s = .next t ∧ t.cfg = s.cfg ∧ t.schedule = s.schedule.tail ∧ t.order = orderAfter s.schedule s.order := by
  obtain ⟨t, h, hc, hs, ho⟩ := takeTurn_total (nextTurn s) (popTurn s)
  exact ⟨t, by simpa only [step, hv, if_true, stepBody] using h, hc, hs, ho⟩

/-- From every state of a valid configuration there is an infinite run. -/
theorem exists_run {s : State} (hv : s.cfg.valid = true) : ∃ run : Nat → State, IsRun run ∧ run 0 = s := by
  choose f hf hc using fun x : { s : State // s.cfg.valid = true } => step_total x.2
  let g (x : { s : State // s.cfg.valid = true }) : { s : State // s.cfg.valid = true } :=
    ⟨f x, by rw [(hc x).1]; exact x.2⟩
  refine ⟨fun n => (g^[n] ⟨s, hv⟩).1, fun n => ?_, rfl⟩
  simp only [Function.iterate_succ_apply']
  exact hf _

end Sys2Proof.Machine
end

