-- ==== Sys2Proof/Tests/Slice0.lean ====
section
/-! SUPPORT. Tests of the model. Words are written from the patterns of R85, and expected results are those of the
spec's own vectors (spec/95_test_vectors.md, cited by their names T1, A1, ...) or of a rule's example. After them, for each
obligation with hypotheses, states and operands that meet them. -/

namespace Sys2Proof.Tests

open Sys2Proof.Machine

/-! ### Building a start state (the conventions of spec/95_test_vectors.md) -/

/-- The state after construction with the engine Running and the CPU's turn next. -/
def base : State := { State.reset with engine := .running, schedule := [.cpu] }

/-- `s` with these registers written. -/
def withV (l : List (Reg × Byte)) (s : State) : State := l.foldl (fun s p => s.writeV p.1 p.2) s

/-- `s` with these bytes from `a` on. -/
def withBytes (a : Nat) (bs : List Byte) (s : State) : State :=
  s.setMem (Memory.writeAll s.cfg s.mem a bs)

/-- One step of the machine, if it answers a next state. -/
def stepOf (s : State) : Option State :=
  match step s with
  | .next t => some t
  | .fault _ => none
  | .refused _ => none

/-- One step with the word `w` at PC. -/
def runWord (w : Word) (s : State) : Option State := stepOf (placeWord s s.pc.toNat w)

/-- One step with `t` as the next turn. -/
def runTurn (t : Turn) (s : State) : Option State := stepOf { s with schedule := [t] }

/-! ### Well-formedness: the one check, and a term it refuses -/

theorem test_wellFormed_accepts_fifteen_rows : (Instr.drw 0 1 15).wellFormed = true := by decide

theorem test_wellFormed_refuses_sixteen_rows : (Instr.drw 0 1 16).wellFormed = false := by decide

/-! ### Decoding: a word written out for every constructor -/

theorem test_decode_cls : decodeWord 0b0000000011100000#16 = .ok .cls := by decide
theorem test_decode_ret : decodeWord 0b0000000011101110#16 = .ok .ret := by decide
theorem test_decode_jp : decodeWord 0b0001001010101100#16 = .ok (.jp 0b001010101100#12) := by decide
theorem test_decode_call : decodeWord 0x2ABC#16 = .ok (.call 0xABC#12) := by decide
theorem test_decode_seImm : decodeWord 0b0011001101000010#16 = .ok (.seImm 0b0011 0b01000010#8) := by decide
theorem test_decode_sneImm : decodeWord 0x4342#16 = .ok (.sneImm 3 0x42#8) := by decide
theorem test_decode_seReg : decodeWord 0x5120#16 = .ok (.seReg 1 2) := by decide
theorem test_decode_ldImm : decodeWord 0b0110101011111111#16 = .ok (.ldImm 0b1010 0b11111111#8) := by decide
theorem test_decode_addImm : decodeWord 0x7220#16 = .ok (.addImm 2 0x20#8) := by decide
theorem test_decode_ldReg : decodeWord 0x8010#16 = .ok (.ldReg 0 1) := by decide
theorem test_decode_orReg : decodeWord 0x8AB1#16 = .ok (.orReg 10 11) := by decide
theorem test_decode_andReg : decodeWord 0x8AB2#16 = .ok (.andReg 10 11) := by decide
theorem test_decode_xorReg : decodeWord 0x8AB3#16 = .ok (.xorReg 10 11) := by decide
theorem test_decode_addReg : decodeWord 0b1000111100010100#16 = .ok (.addReg 0b1111 0b0001) := by decide
theorem test_decode_sub : decodeWord 0x8015#16 = .ok (.sub 0 1) := by decide
theorem test_decode_shr : decodeWord 0x8456#16 = .ok (.shr 4 5) := by decide
theorem test_decode_subn : decodeWord 0x8017#16 = .ok (.subn 0 1) := by decide
theorem test_decode_shl : decodeWord 0x840E#16 = .ok (.shl 4 0) := by decide
theorem test_decode_sneReg : decodeWord 0x9120#16 = .ok (.sneReg 1 2) := by decide
theorem test_decode_ldI : decodeWord 0xA2F0#16 = .ok (.ldI 0x2F0#12) := by decide
theorem test_decode_jpV0 : decodeWord 0xB300#16 = .ok (.jpV0 0x300#12) := by decide
theorem test_decode_rnd : decodeWord 0xC30F#16 = .ok (.rnd 3 0x0F#8) := by decide
theorem test_decode_drw : decodeWord 0b1101000100101111#16 = .ok (.drw 0b0001 0b0010 0b1111) := by decide
theorem test_decode_skp : decodeWord 0b1110001010011110#16 = .ok (.skp 0b0010) := by decide
theorem test_decode_sknp : decodeWord 0xE2A1#16 = .ok (.sknp 2) := by decide
theorem test_decode_ldVxDt : decodeWord 0b1111001100000111#16 = .ok (.ldVxDt 0b0011) := by decide
theorem test_decode_ldVxK : decodeWord 0xF40A#16 = .ok (.ldVxK 4) := by decide
theorem test_decode_ldDtVx : decodeWord 0xF315#16 = .ok (.ldDtVx 3) := by decide
theorem test_decode_ldStVx : decodeWord 0xF318#16 = .ok (.ldStVx 3) := by decide
theorem test_decode_addI : decodeWord 0xF21E#16 = .ok (.addI 2) := by decide
theorem test_decode_ldF : decodeWord 0xF129#16 = .ok (.ldF 1) := by decide
theorem test_decode_ldB : decodeWord 0xF033#16 = .ok (.ldB 0) := by decide
theorem test_decode_ldMemVx : decodeWord 0b1111001001010101#16 = .ok (.ldMemVx 0b0010) := by decide
theorem test_decode_ldVxMem : decodeWord 0xF265#16 = .ok (.ldVxMem 2) := by decide

/-- Vectors E4 to E11: the illegal words. -/
theorem test_decode_illegal_words :
    [0x0000#16, 0x0123#16, 0x00E1#16, 0x00FF#16, 0x00FE#16, 0x00C1#16, 0x5121#16, 0x8128#16, 0x8129#16, 0x812A#16,
      0x812B#16, 0x812C#16, 0x812D#16, 0x812F#16, 0x9121#16, 0xE19F#16, 0xE1A2#16, 0xE000#16, 0xF000#16, 0xF030#16,
      0xF075#16, 0xF085#16, 0xF1FF#16].all (fun w => decide (decodeWord w = .error (.illegal w))) = true := by decide

/-- R80: one byte is no instruction, and two are taken, the first the high one. -/
theorem test_decode_bytes :
    decode [0x12#8] = .error .truncated ∧ decode [0x12#8, 0x34#8, 0x56#8] = .ok (.jp 0x234#12, [0x56#8]) := by decide

/-! ### Control transfer -/

/-- Vectors T6, T10: the return address is PC + 2. -/
theorem test_call_pushes : (runWord 0x2300#16 { base with pc := 0x202#16 }).map (fun t => (t.stack, t.pc)) =
    some ([0x204#16], 0x300#16) := by decide

/-- Vector T9: the seventeenth call. -/
theorem test_call_overflows :
    (runWord 0x2300#16 { base with pc := 0x250#16, stack := List.replicate 16 0x202#16 }).map
      (fun t => (t.fault, t.stack.length, t.pc, t.engine)) =
    some (some { kind := .stackOverflow, code := 3, pc := 0x250#16, info := .none }, 16, 0x250#16, .halted) := by decide

/-- Vector T7, with an older entry below. -/
theorem test_ret_pops_last :
    (runWord 0x00EE#16 { base with pc := 0x300#16, stack := [0x222#16, 0x204#16] }).map (fun t => (t.stack, t.pc)) =
    some ([0x222#16], 0x204#16) := by decide

/-- Vector T8. -/
theorem test_ret_underflows : (runWord 0x00EE#16 base).map (fun t => (t.fault, t.pc, t.events)) =
    some (some { kind := .stackUnderflow, code := 4, pc := 0x200#16, info := .none }, 0x200#16,
      [.faultOccurred { kind := .stackUnderflow, code := 4, pc := 0x200#16, info := .none }]) := by decide

/-- Vector T1. -/
theorem test_jp : (runWord 0x1300#16 { base with pc := 0x202#16 }).map State.pc = some 0x300#16 := by decide

/-- Vector T13: no mask to 12 bits. -/
theorem test_jpV0_unmasked : (runWord 0xBFFF#16 (withV [(0, 0xFF#8), (15, 0x01#8)] base)).map State.pc =
    some 0x10FE#16 := by decide

/-- Vectors T14, T15. -/
theorem test_seImm : ((runWord 0x3342#16 (withV [(3, 0x42#8)] base)).map State.pc,
    (runWord 0x3342#16 (withV [(3, 0x41#8)] base)).map State.pc) = (some 0x204#16, some 0x202#16) := by decide

/-- Vectors T17, T16. -/
theorem test_sneImm : ((runWord 0x4342#16 (withV [(3, 0x41#8)] base)).map State.pc,
    (runWord 0x4342#16 (withV [(3, 0x42#8)] base)).map State.pc) = (some 0x204#16, some 0x202#16) := by decide

/-- Vectors T18, T19. -/
theorem test_seReg : ((runWord 0x5120#16 (withV [(1, 7#8), (2, 7#8)] base)).map State.pc,
    (runWord 0x5120#16 (withV [(1, 7#8), (2, 8#8)] base)).map State.pc) = (some 0x204#16, some 0x202#16) := by decide

/-- Vectors T20, T21. -/
theorem test_sneReg : ((runWord 0x9120#16 (withV [(1, 7#8), (2, 8#8)] base)).map State.pc,
    (runWord 0x9120#16 (withV [(1, 7#8), (2, 7#8)] base)).map State.pc) = (some 0x204#16, some 0x202#16) := by decide

/-! ### Register loads, arithmetic, logic -/

/-- Vector A1. -/
theorem test_ldImm : (runWord 0x6AFF#16 base).map (fun t => (t.readV 10, t.pc)) = some (0xFF#8, 0x202#16) := by decide

/-- Vector A3: the wrap, and no flag. -/
theorem test_addImm : (runWord 0x7220#16 (withV [(2, 0xF0#8), (15, 1#8)] base)).map
    (fun t => (t.readV 2, t.readV 15)) = some (0x10#8, 1#8) := by decide

/-- Vector A5. -/
theorem test_ldReg : (runWord 0x8010#16 (withV [(1, 0x33#8)] base)).map (fun t => t.readV 0) = some 0x33#8 := by decide

/-- Vector A6. -/
theorem test_orReg : (runWord 0x8011#16 (withV [(0, 0x0C#8), (1, 0x0A#8), (15, 1#8)] base)).map
    (fun t => (t.readV 0, t.readV 15)) = some (0x0E#8, 1#8) := by decide

/-- Vector A7. -/
theorem test_andReg : (runWord 0x8012#16 (withV [(0, 0x0C#8), (1, 0x0A#8)] base)).map (fun t => t.readV 0) =
    some 0x08#8 := by decide

/-- Vector A8. -/
theorem test_xorReg : (runWord 0x8013#16 (withV [(0, 0x0C#8), (1, 0x0A#8)] base)).map (fun t => t.readV 0) =
    some 0x06#8 := by decide

/-- Vector A10. -/
theorem test_addReg_carries : (runWord 0x8014#16 (withV [(0, 0xC8#8), (1, 0x64#8)] base)).map
    (fun t => (t.readV 0, t.readV 15)) = some (0x2C#8, 1#8) := by decide

/-- Vectors A14, A15: VF as destination holds the flag; VF as a source is the old VF. -/
theorem test_addReg_with_vf :
    ((runWord 0x8F14#16 (withV [(15, 0x80#8), (1, 0x90#8)] base)).map (fun t => t.readV 15),
      (runWord 0x80F4#16 (withV [(0, 0x01#8), (15, 0xFF#8)] base)).map (fun t => (t.readV 0, t.readV 15))) =
    (some 1#8, some (0x00#8, 1#8)) := by decide

/-- Vector A16. -/
theorem test_sub_borrows : (runWord 0x8015#16 (withV [(0, 0x05#8), (1, 0x0A#8)] base)).map
    (fun t => (t.readV 0, t.readV 15)) = some (0xFB#8, 0#8) := by decide

/-- Vector A17: equal operands do not borrow. -/
theorem test_sub_equal : (runWord 0x8015#16 (withV [(0, 0x0A#8), (1, 0x0A#8)] base)).map
    (fun t => (t.readV 0, t.readV 15)) = some (0x00#8, 1#8) := by decide

/-- Vector A21: the Y field is ignored. -/
theorem test_shr_ignores_y : (runWord 0x8456#16 (withV [(4, 0x04#8), (5, 0xFF#8)] base)).map
    (fun t => (t.readV 4, t.readV 15)) = some (0x02#8, 0#8) := by decide

/-- Vector A20. -/
theorem test_shr_shifts_out : (runWord 0x8406#16 (withV [(4, 0x05#8)] base)).map
    (fun t => (t.readV 4, t.readV 15)) = some (0x02#8, 1#8) := by decide

/-- Vector A24. -/
theorem test_subn_borrows : (runWord 0x8017#16 (withV [(0, 0x0A#8), (1, 0x05#8)] base)).map
    (fun t => (t.readV 0, t.readV 15)) = some (0xFB#8, 0#8) := by decide

/-- Vector A25. -/
theorem test_subn : (runWord 0x8017#16 (withV [(0, 0x05#8), (1, 0x0A#8)] base)).map
    (fun t => (t.readV 0, t.readV 15)) = some (0x05#8, 1#8) := by decide

/-- Vector A27. -/
theorem test_shl_shifts_out : (runWord 0x840E#16 (withV [(4, 0x81#8)] base)).map
    (fun t => (t.readV 4, t.readV 15)) = some (0x02#8, 1#8) := by decide

/-- Vector A30: VF as destination keeps the flag. -/
theorem test_shl_of_vf : (runWord 0x8F0E#16 (withV [(15, 0x80#8)] base)).map (fun t => t.readV 15) = some 1#8 := by
  decide

/-- Vector A32: whatever the byte drawn. -/
theorem test_rnd_masks_all : ∃ t, exec (.rnd 3 0x00#8) base = .next t ∧ t.readV 3 = 0x00#8 ∧ t.draws = 1 :=
  ⟨_, rfl, by simp, rfl⟩

/-! ### Display -/

/-- A sprite byte at 0x300 and `I` there. -/
def sprite (b : Byte) (s : State) : State := withBytes 0x300 [b] { s with i := 0x300#16 }

/-- Vector D17. -/
theorem test_cls : (runWord 0x00E0#16 { base with display := List.replicate 2048 true }).map
    (fun t => (t.pixel 0 0, t.pixel 9 1, t.dt.latch)) = some (false, false, true) := by decide

/-- Vector D6: each pixel column wraps by itself. -/
theorem test_drw_wraps : (runWord 0xD011#16 (withV [(0, 63#8)] (sprite 0xC0#8 base))).map
    (fun t => (t.pixel 63 0, t.pixel 0 0, t.pixel 1 0, t.readV 15, t.dt.latch)) =
    some (true, true, false, 0#8, true) := by decide

/-- Vector D12: the fault comes after the reset of VF. -/
theorem test_drw_faults_past_memory : (runWord 0xD012#16 (withV [(15, 5#8)] { base with i := 0xFFF#16 })).map
    (fun t => (t.fault.map FaultRecord.info, t.readV 15, t.dt.latch, t.pc)) =
    some (some (.address 0x1000), 0#8, false, 0x200#16) := by decide

/-! ### Timers -/

/-- Vector M1. -/
theorem test_ldVxDt : (runWord 0xF307#16 { base with dt := { counter := 0x3C#8, latch := false } }).map
    (fun t => t.readV 3) = some 0x3C#8 := by decide

/-- Vector M2. -/
theorem test_ldDtVx : (runWord 0xF315#16 (withV [(3, 5#8)] base)).map State.dt =
    some { counter := 5#8, latch := false } := by decide

/-- Vector M3. -/
theorem test_ldStVx_sets_latch : (runWord 0xF318#16 (withV [(3, 5#8)] base)).map State.st =
    some { counter := 5#8, latch := true } := by decide

/-- Vector M5, its instruction: zero leaves the latch. -/
theorem test_ldStVx_zero : (runWord 0xF318#16 { base with st := { counter := 9#8, latch := true } }).map State.st =
    some { counter := 0#8, latch := true } := by decide

/-- Vector M7, its first tick. -/
theorem test_delayTick_notifies : (runTurn .delayTick { base with dt := { counter := 0#8, latch := true } }).map
    (fun t => (t.dt, t.events)) = some ({ counter := 0#8, latch := false }, [.displayUpdated]) := by decide

/-- Vector M12: no tick while Idle. -/
theorem test_delayTick_idle : (runTurn .delayTick { State.reset with dt := { counter := 5#8, latch := false } }).map
    (fun t => t.dt.counter) = some 5#8 := by decide

/-- Vector M11, its first tick: the last active tick emits, and clears the latch. -/
theorem test_soundTick_last : (runTurn .soundTick { base with st := { counter := 1#8, latch := true } }).map
    (fun t => (t.st, t.events)) =
    some ({ counter := 0#8, latch := false }, [.toneRequest { ticks := 1, hz := 60 }]) := by decide

/-- Vector M5, its tick: no tone at zero, and the latch is cleared. -/
theorem test_soundTick_zero : (runTurn .soundTick { base with st := { counter := 0#8, latch := true } }).map
    (fun t => (t.st, t.events)) = some ({ counter := 0#8, latch := false }, []) := by decide

/-! ### Index register and memory transfer -/

/-- Vector X2. -/
theorem test_ldI : (runWord 0xAFFF#16 base).map State.i = some 0x0FFF#16 := by decide

/-- Vector X5, with VF to be kept (X4). -/
theorem test_addI_wraps : (runWord 0xF01E#16 (withV [(0, 1#8), (15, 7#8)] { base with i := 0xFFFF#16 })).map
    (fun t => (t.i, t.readV 15)) = some (0x0000#16, 7#8) := by decide

/-- Vector X7: the low nibble alone. -/
theorem test_ldF : (runWord 0xF129#16 (withV [(1, 0x1F#8)] base)).map State.i = some 0x004B#16 := by decide

/-- Vector X8: the hundreds at the lowest address. -/
theorem test_ldB : (runWord 0xF033#16 (withV [(0, 156#8)] { base with i := 0x300#16 })).map
    (fun t => (t.byteAt 0x300, t.byteAt 0x301, t.byteAt 0x302)) = some (1#8, 5#8, 6#8) := by decide

/-- Vector X11: the digits before the fault stay. -/
theorem test_ldB_faults : (runWord 0xF033#16 (withV [(0, 123#8)] { base with i := 0xFFE#16 })).map
    (fun t => (t.byteAt 0xFFE, t.byteAt 0xFFF, t.fault.map FaultRecord.info, t.pc)) =
    some (1#8, 2#8, some (.address 0x1000), 0x200#16) := by decide

/-- Vector X13: `I` stays. -/
theorem test_ldMemVx : (runWord 0xF255#16 (withV [(0, 1#8), (1, 2#8), (2, 3#8), (3, 9#8)] { base with i := 0x400#16 })).map
    (fun t => ([0x400, 0x401, 0x402, 0x403].map t.byteAt, t.i)) = some ([1#8, 2#8, 3#8, 0#8], 0x400#16) := by decide

/-- Vector X15: the reserved region. -/
theorem test_ldMemVx_faults : (runWord 0xF155#16 { base with i := 0x1FF#16 }).map
    (fun t => (t.fault.map FaultRecord.info, t.mem == (placeWord base 0x200 0xF155#16).mem)) =
    some (some (.address 0x1FF), true) := by decide

/-- Vector X17. -/
theorem test_ldVxMem : (runWord 0xF265#16 (withBytes 0x400 [7#8, 8#8, 9#8, 1#8] { base with i := 0x400#16 })).map
    (fun t => (t.readV 0, t.readV 1, t.readV 2, t.readV 3)) = some (7#8, 8#8, 9#8, 0#8) := by decide

/-- Vector X19: what was loaded before the fault stays. -/
theorem test_ldVxMem_faults :
    (runWord 0xF165#16 (withBytes 0xFFF [0x44#8] (withV [(1, 0x99#8)] { base with i := 0xFFF#16 }))).map
      (fun t => (t.readV 0, t.readV 1, t.fault.map FaultRecord.info)) =
    some (0x44#8, 0x99#8, some (.address 0x1000)) := by decide

/-! ### Keys -/

/-- Vectors K2, K4: another key, and a value that is no key. -/
theorem test_skp_other_key : ((runWord 0xE29E#16 (withV [(2, 5#8)] { base with key := some 6 })).map State.pc,
    (runWord 0xE29E#16 (withV [(2, 0x10#8)] { base with key := some 0 })).map State.pc) =
    (some 0x202#16, some 0x202#16) := by decide

/-- Vector K1. -/
theorem test_skp_pressed : (runWord 0xE29E#16 (withV [(2, 5#8)] { base with key := some 5 })).map State.pc =
    some 0x204#16 := by decide

/-- Vectors K5, K7: no key, and a value that is no key. -/
theorem test_sknp_not_pressed : ((runWord 0xE2A1#16 (withV [(2, 5#8)] base)).map State.pc,
    (runWord 0xE2A1#16 (withV [(2, 0x10#8)] { base with key := some 0 })).map State.pc) =
    (some 0x204#16, some 0x204#16) := by decide

/-- Vector K6. -/
theorem test_sknp_pressed : (runWord 0xE2A1#16 (withV [(2, 5#8)] { base with key := some 5 })).map State.pc =
    some 0x202#16 := by decide

/-- Vector K8: the key is not consumed. -/
theorem test_ldVxK : (runWord 0xF40A#16 { base with key := some 0xB }).map (fun t => (t.readV 4, t.pc, t.key)) =
    some (0x0B#8, 0x202#16, some 0xB) := by decide

/-- Vector K9: the CPU is held. -/
theorem test_ldVxK_holds : (runWord 0xF40A#16 (withV [(4, 9#8)] base)).map (fun t => (t.readV 4, t.pc, t.engine)) =
    some (9#8, 0x200#16, .running) := by decide

/-! ### Fetch, the host and the engine -/

/-- Vectors E1, E2: the last word of memory, and the last byte. -/
theorem test_fetch_at_the_end :
    ((stepOf (withBytes 0xFFE [0x60#8, 0x01#8] { base with pc := 0xFFE#16 })).map (fun t => (t.readV 0, t.pc)),
      (stepOf { base with pc := 0xFFF#16 }).map (fun t => t.fault)) =
    (some (0x01#8, 0x1000#16),
      some (some { kind := .malformedWordRead, code := 5, pc := 0xFFF#16, info := .address 0xFFF })) := by decide

/-- Vector E12: nothing loaded. -/
theorem test_zero_word_faults : (stepOf base).map State.fault =
    some (some { kind := .malformedInstruction, code := 2, pc := 0x200#16, info := .word 0x0000#16 }) := by decide

/-- Vectors H1, H3: the load, and none while Running. -/
theorem test_load : ((runTurn (.host (.load [0x12#8, 0x00#8])) State.reset).map (fun t => (t.byteAt 0x200, t.pc)),
    (runTurn (.host (.load [0x12#8, 0x00#8])) base).map (fun t => t.byteAt 0x200)) =
    (some (0x12#8, 0x200#16), some 0x00#8) := by decide

/-- Vectors H4, H5, H7: run, cancel, and no run from Halted. -/
theorem test_run_and_cancel : ((runTurn (.host (.run 500 10)) State.reset).map State.engine,
    (runTurn (.host .cancel) base).map (fun t => (t.engine, t.fault, t.events)),
    (runTurn (.host (.run 500 10)) { base with engine := .halted }).map State.engine) =
    (some .running, some (.halted, none, []), some .halted) := by decide

/-- Vector H6. -/
theorem test_reset_from_halted :
    (runTurn (.host .reset) (withV [(3, 7#8)]
      { base with engine := .halted, key := some 4, events := [.displayUpdated], pc := 0x333#16 })).map
      (fun t => (t.engine, t.readV 3, t.pc, t.key, t.events)) =
    some (.idle, 0#8, 0x200#16, some 4, [.displayUpdated]) := by decide

/-- Placing a word from outside: the very next step after reset runs it. -/
theorem test_withFetchWord : (stepOf (State.reset.withFetchWord 16 0x6A42)).map (fun t => (t.readV 10, t.pc)) =
    some (0x42#8, 0x202#16) := by decide

/-! ### What meets the hypotheses of the obligations -/

/-- A stack of fifteen entries: a call is the last that fits. -/
def nearlyFull : State := { base with stack := List.replicate 15 0x202#16 }

/-- A full stack. -/
def full : State := { base with stack := List.replicate 16 0x202#16 }

theorem witness_DecodeOfEncode :
    (Instr.drw 15 0 15).wellFormed = true ∧ (Instr.drw 0 15 0).wellFormed = true := by decide

theorem witness_EncodeOfDecode : decodeWord 0xD0F0#16 = .ok (.drw 0 15 0) := by decide

theorem witness_IllegalWordsFault :
    base.engine = .running ∧ fetch base = .ok 0x0000#16 ∧ decodeWord 0x0000#16 = .error (.illegal 0x0000#16) := by
  decide

theorem witness_StepRunsDecodedInstruction :
    ∃ s : State, s.cfg.valid = true ∧ s.engine = .running ∧ nextTurn s = .cpu ∧ s.pc.toNat + 1 = 4095 ∧
      (0x6001#16 : Word).toNat = 256 * (s.byteAt s.pc.toNat).toNat + (s.byteAt (s.pc.toNat + 1)).toNat ∧
      decodeWord 0x6001#16 = .ok (.ldImm 0 0x01#8) :=
  ⟨withBytes 0xFFE [0x60#8, 0x01#8] { base with pc := 0xFFE#16 }, by decide⟩

theorem witness_FetchFaultsOnlyPastMemory :
    (∃ s : State, s.engine = .running ∧ s.pc.toNat = 0x0FFF) ∧ ∃ s : State, s.pc.toNat = 0x0FFE :=
  ⟨⟨{ base with pc := 0xFFF#16 }, by decide⟩, ⟨{ base with pc := 0xFFE#16 }, by decide⟩⟩

theorem witness_StepTakesTheNextTurn :
    base.cfg.valid = true ∧ ({ userStart := 79 } : Config).valid = false ∧ base.schedule = .cpu :: [] ∧
      (∃ s : State, s.schedule = [] ∧ Config.freeGap s.order.round ≤ s.order.used) ∧
      ∀ n, n < Config.freeGap 0 → ∃ s : State, s.schedule = [] ∧ s.order.used < Config.freeGap s.order.round :=
  ⟨by decide, by decide, rfl, ⟨{ State.reset with order := { round := 0, used := Config.freeGap 0 } }, rfl, Nat.le_refl _⟩,
    fun n h => ⟨{ State.reset with order := { round := 0, used := n } }, rfl, h⟩⟩

/-- From every state of a valid configuration there is an infinite run. -/
theorem witness_EveryRunIsWeaklyFair : ∃ run : Nat → State, IsRun run ∧ run 0 = base :=
  exists_run (by decide)

/-- Each kind of turn in a state in which it is no step; the CPU's also while held. -/
theorem witness_DisabledTurnsPass :
    ¬ turnEnabled .cpu State.reset ∧ ¬ turnEnabled .delayTick State.reset ∧
      ¬ turnEnabled .soundTick { base with engine := .halted } ∧ ¬ turnEnabled (.host (.load [])) base ∧
      ¬ turnEnabled (.host (.run 500 10)) { base with engine := .halted } ∧
      ¬ turnEnabled (.host .cancel) State.reset ∧ ¬ turnEnabled (.host .reset) base ∧
      ∃ s : State, s.engine = .running ∧ ¬ turnEnabled .cpu s :=
  ⟨fun h => (by cases h.1), fun h => (by cases h), fun h => (by cases h), fun h => (by cases h), fun h => (by cases h),
    fun h => (by cases h), fun h => h rfl,
    ⟨placeWord base 0x200 0xF40A#16, rfl, fun h => h.2 ⟨rfl, rfl, 0xF40A#16, 4, by decide, by decide⟩⟩⟩

theorem witness_AdvanceByTwo :
    (∃ t, exec (.ldImm 3 7#8) base = .next t ∧ base.engine = .running ∧ t.engine = .running ∧
        isControlTransfer (.ldImm 3 7#8) = false ∧ ∀ x, Instr.ldImm 3 7#8 = .ldVxK x → base.key ≠ none) ∧
      ∃ s t : State, exec (.ldVxK 4) s = .next t ∧ s.engine = .running ∧ t.engine = .running ∧ s.key ≠ none :=
  ⟨⟨_, rfl, rfl, rfl, rfl, fun x h => by cases h⟩,
    ⟨{ base with key := some 0xB }, _, rfl, rfl, rfl, by decide⟩⟩

theorem witness_CallPushesReturnAddress :
    nearlyFull.stack.length + 1 = nearlyFull.cfg.stackDepth ∧ full.cfg.stackDepth = full.stack.length := by decide

theorem witness_ReturnPopsStack :
    full.stack = List.replicate 15 0x202#16 ++ [0x202#16] ∧ base.stack = [] := by decide

theorem witness_ReturnAfterCall : nearlyFull.stack.length < nearlyFull.cfg.stackDepth := by decide

theorem witness_SkipsOnImmediate :
    (withV [(3, 0x42#8)] base).readV 3 = 0x42#8 ∧ (withV [(3, 0x41#8)] base).readV 3 ≠ 0x42#8 := by decide

theorem witness_SkipsOnRegisters :
    base.readV 0 = base.readV 15 ∧ (withV [(15, 1#8)] base).readV 0 ≠ (withV [(15, 1#8)] base).readV 15 ∧
      (1#4 : Nibble) ≠ 0 ∧ (15#4 : Nibble) ≠ 0 := by decide

theorem witness_OtherInstructionsKeepVf : ∃ t, exec (.ldImm 14 7#8) base = .next t ∧ ¬ mayWriteVf (.ldImm 14 7#8) :=
  ⟨_, rfl, fun h => absurd h (by decide : (14 : Reg) ≠ vf)⟩

/-- A sprite of fifteen rows whose last byte is the last of memory; `I` one further; a pixel covered after wrapping; and a
covered pixel that is set. -/
theorem witness_DrawXorsSprite :
    15 < 16 ∧ base.cfg.valid = true ∧ base.display.length = base.cfg.displayW * base.cfg.displayH ∧
      ({ base with i := 0xFF1#16 } : State).i.toNat + 15 = 0x1000 ∧
      ({ base with i := 0xFF2#16 } : State).i.toNat + 15 = 0x1001 ∧
      spriteCovers base.cfg 63 31 [0x01#8] 6 31 ∧
      ({ base with display := true :: List.replicate 2047 false } : State).pixel 0 0 = true ∧
      spriteCovers base.cfg 0 0 [0x80#8] 0 0 :=
  ⟨by decide, by decide, List.length_replicate, by decide, by decide, ⟨0, 0x01#8, rfl, 7, by decide⟩, by decide,
    ⟨0, 0x80#8, rfl, 0, by decide⟩⟩

theorem witness_DrawTwiceRestoresDisplay :
    15 < 16 ∧ base.cfg.valid = true ∧ base.display.length = base.cfg.displayW * base.cfg.displayH ∧
      ({ base with i := 0xFF1#16 } : State).i.toNat + 15 ≤ 0x1000 ∧ (∀ px py, base.pixel px py = false) ∧
      base.byteAt (base.i.toNat + 0) ≠ 0#8 :=
  ⟨by decide, by decide, List.length_replicate, by decide, State.pixel_blank (s := base) rfl, by decide⟩

theorem witness_TimerInstructions :
    (withV [(3, 5#8)] base).readV 3 ≠ 0#8 ∧ base.readV 3 = 0#8 := by decide

theorem witness_DelayTickStep :
    (∃ s : State, s.engine = .running ∧ s.dt.latch = true) ∧ base.engine = .running ∧ base.dt.latch = false :=
  ⟨⟨{ base with dt := { counter := 1#8, latch := true } }, by decide⟩, by decide⟩

theorem witness_SoundTickStep :
    (∃ s : State, s.engine = .running ∧ s.st.latch = true ∧ s.st.counter ≠ 0#8) ∧
      ∃ s : State, s.engine = .running ∧ ¬ (s.st.latch = true ∧ s.st.counter ≠ 0#8) :=
  ⟨⟨{ base with st := { counter := 1#8, latch := true } }, by decide⟩,
    ⟨{ base with st := { counter := 0#8, latch := true } }, by decide⟩⟩

theorem witness_DelayTimerCountsDown :
    ∃ s : State, s.cfg.valid = true ∧ s.engine = .running ∧ s.dt.latch = true ∧
      s.schedule = List.replicate 6 .delayTick ++ [.cpu] :=
  ⟨{ base with schedule := List.replicate 6 .delayTick ++ [.cpu], dt := { counter := 5#8, latch := true } }, by decide⟩

theorem witness_SoundTimerEmitsOneTonePerActiveTick :
    ∃ s : State, s.cfg.valid = true ∧ s.engine = .running ∧ s.st.latch = true ∧ s.st.counter ≠ 0#8 ∧
      s.st.counter.toNat ≤ 6 ∧ s.schedule = List.replicate 6 .soundTick ++ [.cpu] :=
  ⟨{ base with schedule := List.replicate 6 .soundTick ++ [.cpu], st := { counter := 5#8, latch := true } }, by decide⟩

theorem witness_LatchesAreSetOnlyByTheirWriters :
    (∃ t, exec .cls base = .next t ∧ t.dt.latch ≠ base.dt.latch) ∧
      ∃ t, exec (.ldStVx 3) (withV [(3, 5#8)] base) = .next t ∧ t.st.latch ≠ base.st.latch :=
  ⟨⟨_, rfl, by decide⟩, ⟨_, rfl, by decide⟩⟩

theorem witness_IndexRegisterWriters : base.cfg.valid = true := by decide

/-- The bounds of user space, of a word and of a sprite. -/
theorem witness_ArbiterOperations :
    (base.cfg.userStart ≤ 0x200 ∧ 0x200 < base.cfg.userEnd) ∧ (base.cfg.userStart ≤ 0xFFF ∧ 0xFFF < base.cfg.userEnd) ∧
      0x1FF < base.cfg.userStart ∧ base.cfg.userEnd ≤ 0x1000 ∧ 0x0FFE < 0x0FFF ∧ 0xFF1 + 15 ≤ 0x1000 ∧
      (15 ≠ 0 ∧ 0x1000 < 0xFF2 + 15) := by decide

/-- `I` at the last address where all three digits fit, then one, two and three further, and below user space. -/
theorem witness_DecimalDigitsStored :
    (base.cfg.userStart ≤ 0xFFD ∧ 0xFFD + 2 < base.cfg.userEnd) ∧
      ((∀ j < 2, base.cfg.userStart ≤ 0xFFE + j ∧ 0xFFE + j < base.cfg.userEnd) ∧
        ¬ (base.cfg.userStart ≤ 0xFFE + 2 ∧ 0xFFE + 2 < base.cfg.userEnd)) ∧
      ((∀ j < 1, base.cfg.userStart ≤ 0xFFF + j ∧ 0xFFF + j < base.cfg.userEnd) ∧
        ¬ (base.cfg.userStart ≤ 0xFFF + 1 ∧ 0xFFF + 1 < base.cfg.userEnd)) ∧
      ¬ (base.cfg.userStart ≤ 0x1FF + 0 ∧ 0x1FF + 0 < base.cfg.userEnd) := by decide

/-- All sixteen registers up to the last byte of memory; the fault at the sixteenth; the fault at the first. -/
theorem witness_RegistersStored :
    (base.cfg.userStart ≤ 0xFF0 ∧ 0xFF0 + (15 : Reg).val < base.cfg.userEnd) ∧
      ((15 : Reg) ≤ 15 ∧ (∀ j < (15 : Reg), base.cfg.userStart ≤ 0xFF1 + j.val ∧ 0xFF1 + j.val < base.cfg.userEnd) ∧
        ¬ (base.cfg.userStart ≤ 0xFF1 + (15 : Reg).val ∧ 0xFF1 + (15 : Reg).val < base.cfg.userEnd)) ∧
      ((0 : Reg) ≤ 15 ∧ (∀ j < (0 : Reg), base.cfg.userStart ≤ 0x1FF + j.val ∧ 0x1FF + j.val < base.cfg.userEnd) ∧
        ¬ (base.cfg.userStart ≤ 0x1FF + (0 : Reg).val ∧ 0x1FF + (0 : Reg).val < base.cfg.userEnd)) := by decide

/-- The hypotheses of RegistersLoaded are those of RegistersStored; here on a state. -/
theorem witness_RegistersLoaded :
    ∃ s : State, s.cfg.userStart ≤ s.i.toNat ∧ s.i.toNat + (15 : Reg).val < s.cfg.userEnd :=
  ⟨{ base with i := 0xFF0#16 }, by decide⟩

theorem witness_StoredRegistersLoadBack :
    ∃ s t s' : State, exec (.ldMemVx 15) s = .next t ∧ s.engine = .running ∧ t.engine = .running ∧
      s'.cfg = t.cfg ∧ s'.mem = t.mem ∧ s'.i = t.i ∧ s'.readV 0 ≠ s.readV 0 := by
  refine ⟨withV [(0, 1#8), (15, 2#8)] { base with i := 0xFF0#16 }, _,
    { base with mem := [(0xFF0, 1#8), (0xFFF, 2#8)], i := 0xFF0#16 }, rfl, rfl, rfl, rfl, rfl, rfl, by decide⟩

theorem witness_OtherInstructionsKeepMemory :
    ∃ t, exec .cls base = .next t ∧ ∀ x, Instr.cls ≠ .ldB x ∧ Instr.cls ≠ .ldMemVx x :=
  ⟨_, rfl, fun _ => ⟨Instr.noConfusion, Instr.noConfusion⟩⟩

/-- Program P6: the word stored over the next address is the one fetched. -/
theorem witness_StoredBytesAreFetched :
    (∃ s t : State, exec (.ldMemVx 1) s = .next t ∧ s.engine = .running ∧ t.engine = .running ∧ (0 : Reg) ≤ 1 ∧
      t.pc.toNat = s.i.toNat + (0 : Reg).val ∧ t.pc.toNat + 1 = s.i.toNat + (1 : Reg).val ∧ fetch t = .ok 0x120A#16) ∧
    ∃ s t u : State, exec (.ldB 0) s = .next t ∧ s.engine = .running ∧ t.engine = .running ∧ u.cfg = t.cfg ∧
      u.mem = t.mem ∧ u.pc.toNat = s.i.toNat + 2 ∧ fetch u = .ok 0x0600#16 :=
  ⟨⟨withV [(0, 0x12#8), (1, 0x0A#8)] { base with pc := 0x206#16, i := 0x208#16 }, _, rfl, rfl, rfl, by decide, by decide,
      by decide, by decide⟩,
    ⟨withV [(0, 156#8)] { base with i := 0xFFC#16 }, _,
      { base with mem := [(0xFFC, 1#8), (0xFFD, 5#8), (0xFFE, 6#8)], pc := 0xFFE#16 }, rfl, rfl, rfl, rfl, rfl, by decide,
      by decide⟩⟩

theorem witness_KeySkips :
    ∃ s u : State, (∃ k : Key, s.key = some k ∧ k.val = (s.readV 2).toNat) ∧
      ¬ ∃ k : Key, u.key = some k ∧ k.val = (u.readV 2).toNat :=
  ⟨withV [(2, 15#8)] { base with key := some 15 }, withV [(2, 0x10#8)] { base with key := some 0 }, by decide⟩

theorem witness_KeyWait : ({ base with key := some 0 } : State).key = some 0 ∧ base.key = none := by decide

theorem witness_FaultEntryIsPrecise :
    (∃ t, exec .ret base = .next t ∧ base.engine = .running ∧ t.engine ≠ .running ∧
      State.faultedWith .stackUnderflow .none base t) ∧
      (∃ t, exec (.call 0x300#12) full = .next t ∧ full.engine = .running ∧ t.engine ≠ .running) ∧
      ∃ t, exec (.ldVxMem 0) base = .next t ∧ base.engine = .running ∧ t.engine ≠ .running :=
  ⟨⟨_, rfl, rfl, by decide, rfl, rfl, rfl, rfl⟩, ⟨_, rfl, rfl, by decide⟩, ⟨_, rfl, rfl, by decide⟩⟩

theorem witness_LoadCopiesProgram :
    State.reset.engine = .idle ∧ State.reset.cfg.userStart + 3583 < State.reset.cfg.userEnd ∧
      State.reset.cfg.userEnd ≤ 0x1000 := by decide

theorem witness_RunAndCancel :
    State.reset.engine = .idle ∧ State.reset.engine ≠ .running ∧ base.engine = .running ∧ base.engine ≠ .idle := by decide

theorem witness_ResetReturnsToIdle :
    ∃ s : State, s.cfg.valid = true ∧ s.engine ≠ .running ∧ s.cfg.userStart ≤ 0x200 ∧ 0xFFF < s.cfg.userEnd :=
  ⟨{ base with engine := .halted }, by decide⟩

theorem witness_KeyLatchAndSnapshot : 63 < base.cfg.displayW ∧ 31 < base.cfg.displayH := by decide

/-- Each transition of the engine is taken by some step. -/
theorem witness_EngineStateMachine :
    (∃ s t : State, step s = .next t ∧ s.engine = .idle ∧ t.engine = .running) ∧
      (∃ s t : State, step s = .next t ∧ s.engine = .running ∧ t.engine = .halted ∧ t.fault = none) ∧
      (∃ s t : State, step s = .next t ∧ s.engine = .running ∧ t.engine = .halted ∧ t.fault ≠ none) ∧
      ∃ s t : State, step s = .next t ∧ s.engine = .halted ∧ t.engine = .idle :=
  ⟨⟨{ State.reset with schedule := [.host (.run 500 10)] }, _, rfl, rfl, rfl⟩,
    ⟨{ base with schedule := [.host .cancel] }, _, rfl, rfl, rfl, rfl⟩,
    ⟨base, _, rfl, rfl, rfl, by decide⟩,
    ⟨{ base with engine := .halted, schedule := [.host .reset] }, _, rfl, rfl, rfl⟩⟩

theorem witness_OnlyTheCpuWritesRegisters :
    ∃ s t : State, step s = .next t ∧ nextTurn s ≠ .cpu ∧ nextTurn s ≠ .host .reset :=
  ⟨{ base with schedule := [.soundTick] }, _, rfl, by decide, by decide⟩

/-- The default configuration, the larger display, and a font that fills the reserved region. -/
theorem witness_ConstructionValues :
    ({} : Config).valid = true ∧ ({ displayW := 128, displayH := 64 } : Config).valid = true ∧
      ({ userStart := 80 } : Config).valid = true := by decide

theorem witness_FontAtConstruction : [0xF0#8, 0x80#8, 0xF0#8, 0x80#8, 0x80#8][4]? = some 0x80#8 := by decide

theorem witness_ConstructionMeetsInvariant : ({ displayW := 128, displayH := 64 } : Config).valid = true := by decide

/-- Both halves of the invariants hold of the Running machine, and it steps. -/
theorem witness_StepKeepsInvariant : base.Inv ∧ ∃ t, step base = .next t ∧ t.fault ≠ none :=
  ⟨⟨by decide, Memory.wf_nil _, by decide, List.length_replicate, fun _ h => by cases h⟩, _, rfl, by decide⟩

theorem witness_ReservedRegionIsImmutable : ∃ t, step base = .next t ∧ 0x1FF < base.cfg.userStart :=
  ⟨_, rfl, by decide⟩

theorem witness_PcStaysBounded :
    ∃ s t : State, s.PcBounded ∧ step s = .next t ∧ s.pc.toNat = 0x10FE ∧ 0x1000#16 ∈ s.stack :=
  ⟨{ base with pc := 0x10FE#16, stack := [0x1000#16] }, _, ⟨by simp, by simp⟩, rfl, by simp,
    by simp⟩

theorem witness_EventsAreAppendOnly : ∃ t, step base = .next t ∧ t.events ≠ base.events :=
  ⟨_, rfl, by decide⟩

end Sys2Proof.Tests
end

section
/-! PROOFS. Construction and reset (R7, R280, R282): the small lemmas of `State.constructed`, and what they give. -/

namespace Sys2Proof.Machine

/-- Outside the font an unlisted address reads as 0x00 (R282). -/
theorem Memory.unlisted_of_out_of_font {c : Config} {a : Nat} (h : a < c.fontBase ∨ c.fontBase + fontSize ≤ a) :
    Memory.unlisted c a = 0#8 :=
  if_neg (by omega)

/-- After construction every address is unlisted. -/
theorem State.byteAt_constructed (c : Config) (a : Nat) :
    (State.constructed c).byteAt a = Memory.unlisted c a := rfl

/-- Memory after construction, beyond the font. -/
theorem State.byteAt_constructed_of_out_of_font {c : Config} {a : Nat}
    (h : a < c.fontBase ∨ c.fontBase + fontSize ≤ a) : (State.constructed c).byteAt a = 0#8 :=
  (State.byteAt_constructed c a).trans (Memory.unlisted_of_out_of_font h)

/-- A valid configuration's `USER_START` fits in PC. -/
theorem State.pc_constructed_toNat {c : Config} (hv : c.valid = true) :
    (State.constructed c).pc.toNat = c.userStart := by
  obtain ⟨-, hstart, hend, -⟩ := c.valid_iff.mp hv
  have hfits : c.userStart < 2 ^ 16 := (hstart.trans hend).trans_lt (by decide)
  exact (BitVec.toNat_ofNat _ _).trans (Nat.mod_eq_of_lt hfits)

/-- Settles O54: the values that need an argument are PC, which needs the bound on `USER_START`, the registers, the
blank display and the memory beyond the font; the others are the construction's own. -/
theorem constructionValues : Obligations.ConstructionValues := by
  refine ⟨fun c hv => ?_, rfl, by decide, rfl⟩
  have hdisplay : (State.constructed c).display = List.replicate (c.displayW * c.displayH) false := rfl
  exact ⟨State.readV_constructed c, rfl, State.pc_constructed_toNat hv, rfl, rfl, rfl, State.pixel_blank hdisplay,
    rfl, rfl, rfl, rfl, rfl, fun _ ha => State.byteAt_constructed_of_out_of_font (.inr ha)⟩

end Sys2Proof.Machine
end

section
/-! PROOFS. The turns, said once: closed forms of the two ticks, what a taken turn can be, and what a CPU step can do. -/

namespace Sys2Proof.Machine

/-- The delay tick writes DT and appends at most the display notification (R255). -/
theorem delayTickBody_eq (s : State) :
    delayTickBody s = { s with
      dt := { counter := countDown s.dt.counter, latch := false }
      events := s.events ++ if s.dt.latch then [.displayUpdated] else [] } := by
  cases h : s.dt.latch <;> simp [delayTickBody, State.setDt, State.emit, h]

/-- The sound tick writes ST and appends at most one tone request (R256). -/
theorem soundTickBody_eq (s : State) :
    soundTickBody s = { s with
      st := { counter := countDown s.st.counter, latch := s.st.latch && decide (countDown s.st.counter ≠ 0#8) }
      events := s.events ++ if s.st.latch ∧ s.st.counter ≠ 0#8 then [toneOf s.cfg s.st.counter] else [] } := by
  by_cases h : s.st.latch ∧ s.st.counter ≠ 0#8
  · simp only [soundTickBody, if_pos h]; rfl
  · simp only [soundTickBody, if_neg h, List.append_nil]; rfl

/-- What a taken turn can be: no step at all, a step of the CPU or of a timer of a Running engine, or a host action. -/
theorem takeTurn_cases {turn : Turn} {s t : State} (h : takeTurn turn s = .next t) :
    t = s ∨
      (turn = .cpu ∧ s.engine = .running ∧ cpuStep s = .next t) ∨
      (turn = .delayTick ∧ s.engine = .running ∧ t = delayTickBody s) ∨
      (turn = .soundTick ∧ s.engine = .running ∧ t = soundTickBody s) ∨
      ∃ a, turn = .host a ∧ t = hostStep a s := by
  cases turn with
  | cpu =>
    by_cases he : s.engine = .running
    · exact .inr (.inl ⟨rfl, he, by simpa [takeTurn, cpuTurn, he] using h⟩)
    · exact .inl (by simpa [takeTurn, cpuTurn, he, eq_comm] using h)
  | delayTick =>
    by_cases he : s.engine = .running
    · exact .inr (.inr (.inl ⟨rfl, he, by simpa [takeTurn, delayTick, he, eq_comm] using h⟩))
    · exact .inl (by simpa [takeTurn, delayTick, he, eq_comm] using h)
  | soundTick =>
    by_cases he : s.engine = .running
    · exact .inr (.inr (.inr (.inl ⟨rfl, he, by simpa [takeTurn, soundTick, he, eq_comm] using h⟩)))
    · exact .inl (by simpa [takeTurn, soundTick, he, eq_comm] using h)
  | host a => exact .inr (.inr (.inr (.inr ⟨a, rfl, by simpa [takeTurn, eq_comm] using h⟩)))

/-- A CPU step enters a fault at once, or PC addresses a word of memory and an instruction has its effect. -/
theorem cpuStep_effect {s t : State} (h : cpuStep s = .next t) :
    (∃ r, t = enterFault r s) ∨ (s.pc.toNat + 1 < memSize ∧ Effect s t) := by
  rcases cpuStep_cases s with ⟨-, e⟩ | ⟨w, _, -, -, e⟩ | ⟨w, i, hfetch, -, e⟩ <;> rw [e] at h
  · exact .inl ⟨_, (Host.Outcome.next.inj h).symm⟩
  · exact .inl ⟨_, (Host.Outcome.next.inj h).symm⟩
  · obtain ⟨u, hu, heffect⟩ := exec_effect i s
    obtain rfl : u = t := Host.Outcome.next.inj (hu.symm.trans h)
    refine .inr ⟨Nat.lt_of_not_le fun hpast => ?_, heffect⟩
    rw [fetch_error hpast] at hfetch
    cases hfetch

end Sys2Proof.Machine
end

section
/-! PROOFS. Every step keeps the invariant (R29, R35, R50, R241, R242): one lemma for each thing a turn can do. -/

namespace Sys2Proof.Machine

namespace State.Inv

variable {s t : State}

/-- No fault record stands while the engine is not Halted (R242). -/
theorem fault_eq_none (h : s.Inv) (he : s.engine ≠ .halted) : s.fault = none :=
  Option.eq_none_iff_forall_ne_some.2 fun f hf => he (h.fault_halts f hf).1

/-- The clause on the fault record holds where no record stands. -/
theorem fault_halts_of_none (h : t.fault = none) :
    ∀ f, t.fault = some f →
      t.engine = .halted ∧ f.code = faultCode f.kind ∧ f.pc = t.pc ∧ .faultOccurred f ∈ t.events := by
  simp [h]

/-- The clause on the fault record holds after fault entry (R241). -/
theorem fault_halts_of_faultedWith {kind : FaultKind} {info : FaultInfo} (h : State.faultedWith kind info s t) :
    ∀ f, t.fault = some f →
      t.engine = .halted ∧ f.code = faultCode f.kind ∧ f.pc = t.pc ∧ .faultOccurred f ∈ t.events := by
  obtain ⟨hfault, hengine, hevents, hpc⟩ := h
  intro f hf
  obtain rfl := Option.some.inj (hfault.symm.trans hf)
  exact ⟨hengine, rfl, hpc.symm, by simp [hevents]⟩

theorem after_enterFault (h : s.Inv) (r : Raise) : (enterFault r s).Inv :=
  { h with fault_halts := fault_halts_of_faultedWith (enterFault_spec r s).1 }

/-- An instruction's effect on a Running machine, where no fault record stands, keeps the invariant. -/
theorem after_effect (h : s.Inv) (he : s.engine = .running) (e : Effect s t) : t.Inv := by
  have hnone : s.fault = none := h.fault_eq_none (by simp [he])
  obtain ⟨-, -, hend, -⟩ := s.cfg.valid_iff.1 h.cfg_valid
  have hstack := h.stack_bounded
  constructor
  case cfg_valid => exact e.cfg_eq ▸ h.cfg_valid
  case mem_wf => exact e.cfg_eq ▸ e.mem_wf hend h.mem_wf
  case stack_bounded =>
    rw [e.cfg_eq]
    rcases e.stack_eq with hkept | ⟨a, hpopped⟩ | ⟨hpushed, hroom⟩
    · exact hkept ▸ hstack
    · simp only [hpopped, List.length_append] at hstack
      omega
    · simpa [hpushed] using hroom
  case display_full => exact e.cfg_eq ▸ e.grid_size h.cfg_valid h.display_full
  case fault_halts =>
    rcases e.fault_entry with ⟨-, hfault, -⟩ | ⟨kind, info, hfaulted⟩
    · exact fault_halts_of_none (hfault.trans hnone)
    · exact fault_halts_of_faultedWith hfaulted

theorem after_cpuStep (h : s.Inv) (he : s.engine = .running) (hstep : cpuStep s = .next t) : t.Inv := by
  rcases cpuStep_effect hstep with ⟨r, rfl⟩ | ⟨-, heffect⟩
  · exact h.after_enterFault r
  · exact h.after_effect he heffect

/-- A delay tick touches none of what the invariant is about, and no fault record stands. -/
theorem after_delayTickBody (h : s.Inv) (he : s.engine = .running) : (delayTickBody s).Inv := by
  rw [delayTickBody_eq]
  exact { h with fault_halts := fault_halts_of_none (h.fault_eq_none (by simp [he])) }

/-- The same of a sound tick. -/
theorem after_soundTickBody (h : s.Inv) (he : s.engine = .running) : (soundTickBody s).Inv := by
  rw [soundTickBody_eq]
  exact { h with fault_halts := fault_halts_of_none (h.fault_eq_none (by simp [he])) }

/-- The loader's copy ends within user space, which lies in memory (R58). -/
theorem after_loadBody (h : s.Inv) (bytes : List Byte) : (loadBody bytes s).Inv := by
  obtain ⟨-, hstart, hend, -⟩ := s.cfg.valid_iff.1 h.cfg_valid
  exact { h with mem_wf := Memory.wf_writeAll s.cfg h.mem_wf (by rw [List.length_take]; omega) }

theorem after_resetBody (h : s.Inv) : (resetBody s).Inv where
  cfg_valid := h.cfg_valid
  mem_wf := Memory.wf_clearUser s.cfg h.mem_wf
  stack_bounded := Nat.zero_le _
  display_full := List.length_replicate
  fault_halts := fault_halts_of_none rfl

theorem after_hostStep (h : s.Inv) (a : HostAction) : (hostStep a s).Inv := by
  rcases hostStep_cases a s with
    ⟨bytes, -, -, e⟩ | ⟨_, _, -, he, e⟩ | ⟨-, he, e⟩ | ⟨-, -, e⟩ | ⟨k, -, e⟩ | e <;> rw [e]
  · exact h.after_loadBody bytes
  · exact { h with fault_halts := fault_halts_of_none (h.fault_eq_none (by simp [he])) }
  · exact { h with fault_halts := fault_halts_of_none (h.fault_eq_none (by simp [he])) }
  · exact h.after_resetBody
  · exact { h with }
  · exact h

theorem after_popTurn (h : s.Inv) : (popTurn s).Inv := { h with }

end State.Inv

/-- Settles O57: each thing a turn can do keeps the invariant; a CPU step does through the effect that every
instruction has. -/
theorem stepKeepsInvariant : Obligations.StepKeepsInvariant := by
  intro s t hs hstep
  have h : (popTurn s).Inv := hs.after_popTurn
  rcases takeTurn_cases (step_next hstep).2 with
    rfl | ⟨-, he, hcpu⟩ | ⟨-, he, rfl⟩ | ⟨-, he, rfl⟩ | ⟨a, -, rfl⟩
  · exact h
  · exact h.after_cpuStep he hcpu
  · exact h.after_delayTickBody he
  · exact h.after_soundTickBody he
  · exact h.after_hostStep a

end Sys2Proof.Machine
end

section
/-! PROOFS. PC stays bounded (R28): one lemma for each thing a turn can do. -/

namespace Sys2Proof.Machine

namespace State.PcBounded

variable {s t : State}

/-- The bound is about PC and the stack alone. -/
theorem of_eq (h : s.PcBounded) (hp : t.pc = s.pc) (hs : t.stack = s.stack) : t.PcBounded := by
  rw [State.PcBounded, hp, hs]
  exact h

/-- An instruction fetched from memory leaves PC at most 4 further on, at a jump's target or at a return address; and
what it pushes is at most the end of memory. -/
theorem after_effect (h : s.PcBounded) (hpc : s.pc.toNat + 1 < memSize) (e : Effect s t) : t.PcBounded := by
  obtain ⟨-, hstack⟩ := h
  replace hpc : s.pc.toNat + 1 < 4096 := hpc
  constructor
  · rcases e.pc_bound with heq | heq | heq | hle | hret
    · rw [heq]; omega
    · rw [heq]; bv_omega
    · rw [heq]; bv_omega
    · exact hle
    · exact (hstack _ hret).trans (by decide)
  · intro a ha
    rcases e.stack_eq with hkept | ⟨b, hpopped⟩ | ⟨hpushed, -⟩
    · exact hstack a (hkept ▸ ha)
    · exact hstack a (by rw [hpopped]; exact List.mem_append_left _ ha)
    · rw [hpushed, List.mem_append, List.mem_singleton] at ha
      rcases ha with hold | rfl
      · exact hstack a hold
      · bv_omega

theorem after_cpuStep (h : s.PcBounded) (hstep : cpuStep s = .next t) : t.PcBounded := by
  rcases cpuStep_effect hstep with ⟨r, rfl⟩ | ⟨hpc, heffect⟩
  · exact h.of_eq rfl rfl
  · exact h.after_effect hpc heffect

/-- The explicit reset puts PC at `USER_START`, as the construction does, and empties the stack (R281). -/
theorem after_resetBody (hv : s.cfg.valid = true) : (resetBody s).PcBounded := by
  obtain ⟨-, hstart, hend, -⟩ := s.cfg.valid_iff.1 hv
  replace hend : s.cfg.userEnd ≤ 4096 := hend
  have hpc : (resetBody s).pc.toNat = s.cfg.userStart := State.pc_constructed_toNat hv
  exact ⟨by omega, fun a ha => absurd ha List.not_mem_nil⟩

theorem after_hostStep (h : s.PcBounded) (hv : s.cfg.valid = true) (a : HostAction) : (hostStep a s).PcBounded := by
  rcases hostStep_cases a s with
    ⟨_, -, -, e⟩ | ⟨_, _, -, -, e⟩ | ⟨-, -, e⟩ | ⟨-, -, e⟩ | ⟨_, -, e⟩ | e <;> rw [e]
  exacts [h.of_eq rfl rfl, h.of_eq rfl rfl, h.of_eq rfl rfl, after_resetBody hv, h.of_eq rfl rfl, h]

end State.PcBounded

/-- Settles O59: only a fetched instruction and the explicit reset move PC, and a fetched instruction lies below the
last byte of memory. -/
theorem pcStaysBounded : Obligations.PcStaysBounded := by
  intro s t hs hstep
  obtain ⟨hv, hturn⟩ := step_next hstep
  have h : (popTurn s).PcBounded := hs.of_eq rfl rfl
  rcases takeTurn_cases hturn with rfl | ⟨-, -, hcpu⟩ | ⟨-, -, rfl⟩ | ⟨-, -, rfl⟩ | ⟨a, -, rfl⟩
  · exact h
  · exact h.after_cpuStep hcpu
  · rw [delayTickBody_eq]; exact h.of_eq rfl rfl
  · rw [soundTickBody_eq]; exact h.of_eq rfl rfl
  · exact h.after_hostStep hv a

end Sys2Proof.Machine
end

section
/-! PROOFS. Who writes the register file and `I` (R22, R281). -/

namespace Sys2Proof.Machine

/-- Of the host's actions the explicit reset alone writes the register file or `I` (R22, R281). -/
theorem hostStep_registers {a : HostAction} (ha : a ≠ .reset) (s : State) :
    (∀ r, (hostStep a s).readV r = s.readV r) ∧ (hostStep a s).i = s.i := by
  rcases hostStep_cases a s with
    ⟨_, -, -, e⟩ | ⟨_, _, -, -, e⟩ | ⟨-, -, e⟩ | ⟨hreset, -, -⟩ | ⟨_, -, e⟩ | e
  on_goal 4 => exact absurd hreset ha
  all_goals rw [e]; exact ⟨fun _ => rfl, rfl⟩

/-- Settles O53: a tick writes its timer and the notifications, and of the host's actions the reset alone writes the
register file or `I`. -/
theorem onlyTheCpuWritesRegisters : Obligations.OnlyTheCpuWritesRegisters := by
  intro s t hstep hcpu hreset
  rcases takeTurn_cases (step_next hstep).2 with rfl | ⟨h, -⟩ | ⟨-, -, rfl⟩ | ⟨-, -, rfl⟩ | ⟨a, ha, rfl⟩
  · exact ⟨fun _ => rfl, rfl⟩
  · exact absurd h hcpu
  · rw [delayTickBody_eq]; exact ⟨fun _ => rfl, rfl⟩
  · rw [soundTickBody_eq]; exact ⟨fun _ => rfl, rfl⟩
  · exact hostStep_registers (fun h => hreset (ha.trans (h ▸ rfl))) (popTurn s)

end Sys2Proof.Machine
end

section
/-! PROOFS. A run of delay ticks (R32, R255): the state that it leaves, written out. -/

namespace Sys2Proof.Machine

theorem toNat_countDown (c : Byte) : (countDown c).toNat = c.toNat - 1 := by
  unfold countDown
  split <;> bv_omega

theorem toNat_iterate_countDown (n : Nat) (c : Byte) : (countDown^[n] c).toNat = c.toNat - n := by
  induction n generalizing c with
  | zero => rfl
  | succ n ih => rw [Function.iterate_succ_apply, ih, toNat_countDown]; omega

/-- `s` after `n` delay ticks of a Running engine, with the turns `rest` left to come. -/
def afterDelayTicks (n : Nat) (rest : List Turn) (s : State) : State :=
  { s with
    dt := { counter := countDown^[n] s.dt.counter, latch := s.dt.latch && decide (n = 0) }
    events := if s.dt.latch = true ∧ n ≠ 0 then s.events ++ [.displayUpdated] else s.events
    schedule := rest }

/-- The ticks after the first find the latch clear, so that the first one's notification is the only one. -/
theorem afterDelayTicks_succ {n : Nat} {s : State} {rest : List Turn}
    (hs : s.schedule = .delayTick :: (List.replicate n .delayTick ++ rest)) :
    afterDelayTicks n rest (delayTickBody (popTurn s)) = afterDelayTicks (n + 1) rest s := by
  obtain ⟨-, -, horder⟩ := nextTurn_settled hs
  rw [popTurn_order] at horder
  cases h : s.dt.latch <;> simp [afterDelayTicks, delayTickBody_eq, popTurn, horder, h]

theorem run_delayTicks {n : Nat} {s : State} {rest : List Turn} (hv : s.cfg.valid = true)
    (he : s.engine = .running) (hs : s.schedule = List.replicate n .delayTick ++ rest) :
    Sys2Proof.core.run n s = .next (afterDelayTicks n rest s) := by
  induction n generalizing s with
  | zero =>
    obtain rfl : s.schedule = rest := by simpa using hs
    simp [Host.Core.run, afterDelayTicks]
  | succ n ih =>
    rw [List.replicate_succ, List.cons_append] at hs
    obtain ⟨hnext, hrest, -⟩ := nextTurn_settled hs
    have hstep : step s = .next (delayTickBody (popTurn s)) := by
      rw [step_delayTick hv hnext, delayTick, popTurn_engine, if_pos he]
    obtain ⟨hv', he', hs'⟩ : (delayTickBody (popTurn s)).cfg.valid = true ∧
        (delayTickBody (popTurn s)).engine = .running ∧
        (delayTickBody (popTurn s)).schedule = List.replicate n .delayTick ++ rest := by
      rw [delayTickBody_eq]
      exact ⟨hv, he, hrest⟩
    rw [run_succ n hstep, ih hv' he' hs', afterDelayTicks_succ hs]

/-- Settles O34, from the state that the run leaves. -/
theorem delayTimerCountsDown : Obligations.DelayTimerCountsDown := by
  intro n s rest hv he hs
  refine ⟨_, run_delayTicks hv he hs, toNat_iterate_countDown n s.dt.counter, by simp [afterDelayTicks], rfl, rfl, ?_⟩
  simp [State.sameOutside, afterDelayTicks, State.readV, State.byteAt]

end Sys2Proof.Machine
end

section
/-! PROOFS. What an instruction does to the input latch, VF and the timers' latches (R23, R33, R36), said once of all
instructions. -/

namespace Sys2Proof.Machine

/-- Reads into registers keep every register that is not listed, however far they come. -/
theorem readIntoRegs_keeps (s : State) (a : Nat) (xs : List Reg) :
    ∃ u : State, (readIntoRegs s a xs = .done u ∨ ∃ r, readIntoRegs s a xs = .raised r u) ∧
      u.key = s.key ∧ u.dt = s.dt ∧ u.st = s.st ∧ ∀ r ∉ xs, u.readV r = s.readV r := by
  induction xs generalizing s a with
  | nil => exact ⟨s, .inl rfl, rfl, rfl, rfl, fun _ _ => rfl⟩
  | cons x xs ih =>
    rcases readByte_spec s a with ⟨-, h⟩ | ⟨-, h⟩
    · obtain ⟨u, hu, hk, hd, hs, hv⟩ := ih (s.writeV x (s.byteAt a)) (a + 1)
      refine ⟨u, by simpa only [readIntoRegs, h] using hu, hk, hd, hs, fun r hr => ?_⟩
      rw [List.mem_cons, not_or] at hr
      rw [hv r hr.2, State.readV_writeV_ne _ _ _ hr.1]
    · exact ⟨s, .inr ⟨_, by simp only [readIntoRegs, h]; rfl⟩, rfl, rfl, rfl, fun _ _ => rfl⟩

/-- `t` has the input latch of `s`; its VF, where `i` is none of R23's list; and each timer's latch, unless `i` is one of
the instructions that R33 lets set it. -/
structure KeepsFlags (i : Instr) (s t : State) : Prop where
  key_eq : t.key = s.key
  vf_eq : ¬ mayWriteVf i → t.readV vf = s.readV vf
  dt_latch : t.dt.latch = s.dt.latch ∨ (t.dt.latch = true ∧ (i = .cls ∨ ∃ x y n, i = .drw x y n))
  st_latch : t.st.latch = s.st.latch ∨ (t.st.latch = true ∧ ∃ x, i = .ldStVx x ∧ s.readV x ≠ 0#8)

namespace KeepsFlags

variable {i : Instr} {s t u : State}

/-- Where neither timer's latch changes. -/
theorem of_latches_eq (hk : t.key = s.key) (hd : t.dt.latch = s.dt.latch) (hs : t.st.latch = s.st.latch)
    (hv : ¬ mayWriteVf i → t.readV vf = s.readV vf) : KeepsFlags i s t :=
  ⟨hk, hv, .inl hd, .inl hs⟩

/-- Neither the advance nor fault entry touches any of the four. -/
theorem exists_finish {p : Progress} (h : KeepsFlags i s u) (hp : p = .done u ∨ ∃ r, p = .raised r u) :
    ∃ t, finish p = .next t ∧ KeepsFlags i s t := by
  rcases hp with rfl | ⟨r, rfl⟩
  · exact ⟨u.advance, rfl, { h with }⟩
  · exact ⟨enterFault r u, rfl, { h with }⟩

/-- A write to a register that is not VF, or by an instruction of R23's list. -/
theorem of_write {x : Reg} (hx : x = vf → mayWriteVf i) (b : Byte) : KeepsFlags i s (s.writeV x b) :=
  of_latches_eq rfl rfl rfl fun h => State.readV_writeV_ne _ _ _ fun hvf => h (hx hvf.symm)

/-- Byte writes, then the advance or fault entry. -/
theorem storing (i : Instr) (s : State) (a : Nat) (bs : List Byte) :
    ∃ t, finish (writeBytes s a bs) = .next t ∧ KeepsFlags i s t := by
  obtain ⟨m, hp, -⟩ := writeBytes_keeps s a bs
  exact exists_finish (u := s.setMem m) (of_latches_eq rfl rfl rfl fun _ => rfl) hp

end KeepsFlags

theorem vf_notMem_regsUpTo {x : Reg} (h : x ≠ vf) : vf ∉ regsUpTo x := by
  rw [mem_regsUpTo]
  exact fun hle => h (le_antisymm (Fin.le_last x) hle)

/-- Every instruction keeps the four, but for the writers that the rules name. -/
theorem exec_keepsFlags (i : Instr) (s : State) : ∃ t, exec i s = .next t ∧ KeepsFlags i s t := by
  have kept (i : Instr) : KeepsFlags i s s := .of_latches_eq rfl rfl rfl fun _ => rfl
  cases i with
  | cls => exact ⟨_, rfl, { kept _ with dt_latch := .inr ⟨rfl, .inl rfl⟩ }⟩
  | drw x y n =>
    have hreset := KeepsFlags.of_write (i := .drw x y n) (s := s) (x := vf) (fun _ => trivial) 0#8
    rcases readSprite_spec (s.writeV vf 0#8) s.i.toNat n with ⟨-, e⟩ | ⟨-, -, e⟩ <;> simp only [exec, execDrw, e]
    · exact ⟨_, rfl, { hreset with
        vf_eq := fun h => absurd trivial h
        dt_latch := .inr ⟨rfl, .inr ⟨x, y, n, rfl⟩⟩ }⟩
    · exact hreset.exists_finish (.inr ⟨_, rfl⟩)
  | ldStVx x =>
    refine ⟨_, rfl, { kept _ with st_latch := ?_ }⟩
    by_cases hx : s.readV x = 0#8
    · exact .inl (by simp [hx])
    · exact .inr ⟨by simp [hx], x, rfl, hx⟩
  | ret =>
    rcases pop_spec s with ⟨l, a, -, e⟩ | ⟨-, e⟩ <;> simp only [exec, execRet, e]
    · exact ⟨_, rfl, { kept _ with }⟩
    · exact ⟨_, rfl, { kept _ with }⟩
  | call nnn =>
    rcases push_spec s (s.pc + 2#16) with ⟨-, e⟩ | ⟨-, e⟩ <;> simp only [exec, execCall, e]
    · exact ⟨_, rfl, { kept _ with }⟩
    · exact ⟨_, rfl, { kept _ with }⟩
  | jp | jpV0 | seImm | sneImm | seReg | sneReg | skp | sknp | ldI | addI | ldF | ldDtVx =>
    exact ⟨_, rfl, { kept _ with }⟩
  | ldImm x | addImm x | ldReg x | orReg x | andReg x | xorReg x | ldVxDt x =>
    exact (KeepsFlags.of_write (x := x) id _).exists_finish (.inl rfl)
  | addReg | sub | subn | shr | shl => exact ⟨_, rfl, { kept _ with vf_eq := fun h => absurd trivial h }⟩
  | rnd x nn => exact ⟨_, rfl, { KeepsFlags.of_write (i := .rnd x nn) (s := s) (x := x) id _ with }⟩
  | ldVxK x =>
    cases hkey : s.key <;> simp only [exec, execLdVxK, hkey]
    · exact ⟨_, rfl, kept _⟩
    · exact (KeepsFlags.of_write id _).exists_finish (.inl rfl)
  | ldB | ldMemVx => exact KeepsFlags.storing _ s _ _
  | ldVxMem x =>
    obtain ⟨u, hp, hk, hd, hs, hv⟩ := readIntoRegs_keeps s s.i.toNat (regsUpTo x)
    exact KeepsFlags.exists_finish (.of_latches_eq hk (hd ▸ rfl) (hs ▸ rfl) fun h => hv vf (vf_notMem_regsUpTo h)) hp

/-- The same of the state that an instruction is known to answer. -/
theorem keepsFlags_of_exec {i : Instr} {s t : State} (h : exec i s = .next t) : KeepsFlags i s t := by
  obtain ⟨u, hu, hkeeps⟩ := exec_keepsFlags i s
  obtain rfl : u = t := Host.Outcome.next.inj (hu.symm.trans h)
  exact hkeeps

/-- Settles O12: the configuration and the turns are part of every instruction's effect, the key is kept by each. -/
theorem everyInstructionAnswersNext : Obligations.EveryInstructionAnswersNext := by
  intro i s
  obtain ⟨t, ht, heffect⟩ := exec_effect i s
  exact ⟨t, ht, heffect.cfg_eq, (keepsFlags_of_exec ht).key_eq, heffect.schedule_eq, heffect.order_eq⟩

/-- Settles O27: VF is one of the four that every instruction outside R23's list keeps. -/
theorem otherInstructionsKeepVf : Obligations.OtherInstructionsKeepVf :=
  fun _ _ _ h => (keepsFlags_of_exec h).vf_eq

/-- Settles O36: an instruction's two clauses on the timers' latches. -/
theorem latchesAreSetOnlyByTheirWriters : Obligations.LatchesAreSetOnlyByTheirWriters :=
  fun _ _ _ h => ⟨(keepsFlags_of_exec h).dt_latch, (keepsFlags_of_exec h).st_latch⟩

end Sys2Proof.Machine
end

section
/-! PROOFS. No turn changes a byte of the reserved region (R53): one lemma for each agent that writes memory. -/

namespace Sys2Proof.Machine

/-- A CPU step keeps the reserved region: a fault of the fetch or of the decoder keeps all memory, and every
instruction's effect keeps the bytes below `USER_START`. -/
theorem byteAt_cpuStep_of_reserved {s t : State} (h : cpuStep s = .next t) {a : Nat} (ha : a < s.cfg.userStart) :
    t.byteAt a = s.byteAt a := by
  rcases cpuStep_effect h with ⟨r, rfl⟩ | ⟨-, heffect⟩
  · exact byteAt_enterFault r s a
  · exact heffect.reserved_eq a ha

/-- Of the host's actions the load and the reset write memory, both in user space alone (R58, R59). -/
theorem byteAt_hostStep_of_reserved {s : State} (hv : s.cfg.valid = true) (action : HostAction) {a : Nat}
    (ha : a < s.cfg.userStart) : (hostStep action s).byteAt a = s.byteAt a := by
  rcases hostStep_cases action s with
    ⟨bytes, -, -, e⟩ | ⟨_, _, -, -, e⟩ | ⟨-, -, e⟩ | ⟨-, -, e⟩ | ⟨_, -, e⟩ | e <;> rw [e]
  · rw [byteAt_loadBody, if_neg (by omega)]
  · rfl
  · rfl
  · rw [byteAt_resetBody hv, if_neg (by omega)]
  · rfl

/-- Settles O58: the ticks write no memory, and a CPU step and a host action keep the reserved region. -/
theorem reservedRegionIsImmutable : Obligations.ReservedRegionIsImmutable := by
  intro s t hstep a ha
  obtain ⟨hv, hturn⟩ := step_next hstep
  rw [← byteAt_popTurn s]
  rcases takeTurn_cases hturn with rfl | ⟨-, -, hcpu⟩ | ⟨-, -, rfl⟩ | ⟨-, -, rfl⟩ | ⟨action, -, rfl⟩
  · rfl
  · exact byteAt_cpuStep_of_reserved hcpu ha
  · rw [delayTickBody_eq]; rfl
  · rw [soundTickBody_eq]; rfl
  · exact byteAt_hostStep_of_reserved (s := popTurn s) hv action ha

end Sys2Proof.Machine
end

section
/-! PROOFS. The arbiter (R54 to R57): each operation where its range check passes and where it does not. -/

namespace Sys2Proof

/-- The number that two bytes make, the first of them the high one (R60). -/
theorem toNat_wordOfBytes (hi lo : Byte) : (wordOfBytes hi lo).toNat = 256 * hi.toNat + lo.toNat := by
  rw [wordOfBytes, BitVec.toNat_append, ← Nat.shiftLeft_add_eq_or_of_lt lo.isLt, Nat.shiftLeft_eq, Nat.mul_comm]

end Sys2Proof

namespace Sys2Proof.Machine

/-- What a byte reads as after a byte write. -/
theorem byteAt_setMem_write (s : State) (a : Nat) (b : Byte) (k : Nat) :
    (s.setMem (Memory.write s.cfg s.mem a b)).byteAt k = if k = a then b else s.byteAt k :=
  Memory.read_write s.cfg s.mem a b k

/-- R54 and R56 in user space: the byte is read; and the write sets it, and nothing else. -/
theorem byteOperations_inUser {s : State} {a : Nat} (h : s.cfg.userStart ≤ a ∧ a < s.cfg.userEnd) (b : Byte) :
    readByte s a = .ok (s.byteAt a) ∧
      ∃ t, writeByte s a b = .done t ∧ t.byteAt a = b ∧ State.sameBytesOutside a 1 s t ∧
        State.sameOutside [.mem] s t := by
  have hu : inUser s.cfg a = true := (inUser_iff _ _).2 h
  refine ⟨if_pos hu, s.setMem (Memory.write s.cfg s.mem a b), if_pos hu, ?_, fun k hk => ?_, ?_⟩
  · rw [byteAt_setMem_write, if_pos rfl]
  · rw [byteAt_setMem_write, if_neg (by omega)]
  · simp [State.sameOutside]

/-- R54 and R56 outside user space: both raise OutOfRange with the address, and the write does nothing. -/
theorem byteOperations_outside {s : State} {a : Nat} (h : a < s.cfg.userStart ∨ s.cfg.userEnd ≤ a) (b : Byte) :
    readByte s a = .error (outOfRange a) ∧ writeByte s a b = .raised (outOfRange a) s := by
  have hu : ¬ inUser s.cfg a = true := by rw [inUser_iff]; omega
  exact ⟨if_neg hu, if_neg hu⟩

/-- R57 within memory: the rows are the bytes from `a` on. -/
theorem readSprite_rows {s : State} {a n : Nat} (h : n = 0 ∨ a + n ≤ memSize) :
    ∃ rows, readSprite s a n = .ok rows ∧ rows.length = n ∧ ∀ k < n, rows[k]? = some (s.byteAt (a + k)) :=
  ⟨_, if_neg (by omega), by simp, fun k hk => by simp [hk]⟩

/-- Settles O38, operation by operation; the end of memory is written out as its address. -/
theorem arbiterOperations : Obligations.ArbiterOperations := by
  intro s a n b
  refine ⟨fun h => byteOperations_inUser h b, fun h => byteOperations_outside h b, fun h => ?_, fun h => ?_,
    readSprite_rows, fun hn h => ?_⟩
  · exact ⟨_, if_neg (show ¬ 4096 ≤ a + 1 by omega), toNat_wordOfBytes _ _⟩
  · exact if_pos (show 4096 ≤ a + 1 by omega)
  · exact if_pos ⟨Nat.pos_of_ne_zero hn, h⟩

end Sys2Proof.Machine
end

section
/-! PROOFS. Which instructions write memory (R62, R65). -/

namespace Sys2Proof.Machine

/-- Every instruction but FX33 and FX55 answers a state with the memory that it began with. -/
theorem exec_mem_eq {i : Instr} (h : ∀ x, i ≠ .ldB x ∧ i ≠ .ldMemVx x) (s : State) :
    ∃ t, exec i s = .next t ∧ t.mem = s.mem := by
  cases i with
  | ldB x => exact absurd rfl (h x).1
  | ldMemVx x => exact absurd rfl (h x).2
  | ret => rcases pop_spec s with ⟨l, a, -, e⟩ | ⟨-, e⟩ <;> simp only [exec, execRet, e] <;> exact ⟨_, rfl, rfl⟩
  | call nnn =>
    rcases push_spec s (s.pc + 2#16) with ⟨-, e⟩ | ⟨-, e⟩ <;> simp only [exec, execCall, e] <;> exact ⟨_, rfl, rfl⟩
  | drw x y n =>
    rcases readSprite_spec (s.writeV vf 0#8) s.i.toNat n with ⟨-, e⟩ | ⟨-, -, e⟩ <;> simp only [exec, execDrw, e] <;>
      exact ⟨_, rfl, rfl⟩
  | ldVxK x => cases e : s.key <;> simp only [exec, execLdVxK, e] <;> exact ⟨_, rfl, rfl⟩
  | ldVxMem x =>
    rcases readIntoRegs_cases s s.i.toNat (regsUpTo x) with ⟨v, e⟩ | ⟨v, k, e⟩ <;>
      simp only [exec, execLdVxMem, e] <;> exact ⟨_, rfl, rfl⟩
  | cls | jp | jpV0 | seImm | sneImm | seReg | sneReg | skp | sknp | ldImm | addImm | ldReg | orReg | andReg | xorReg
  | addReg | sub | shr | subn | shl | rnd | ldVxDt | ldDtVx | ldStVx | ldI | addI | ldF => exact ⟨_, rfl, rfl⟩

/-- Settles O43: the memory and the configuration are kept, and they make every byte. -/
theorem otherInstructionsKeepMemory : Obligations.OtherInstructionsKeepMemory := by
  intro i s t hexec hi a
  obtain ⟨u, hu, heffect⟩ := exec_effect i s
  obtain ⟨u', hu', hmem⟩ := exec_mem_eq hi s
  obtain rfl : u = t := Host.Outcome.next.inj (hu.symm.trans hexec)
  obtain rfl : u' = u := Host.Outcome.next.inj (hu'.symm.trans hexec)
  simp only [State.byteAt, heffect.cfg_eq, hmem]

end Sys2Proof.Machine
end

section
/-! PROOFS. What FX33 and FX55 have stored when they complete, and a later fetch of it (R60, R68). -/

namespace Sys2Proof.Machine

/-- An instruction that leaves the engine Running came to its end. -/
theorem eq_done_of_finish_running {p : Progress} {t : State} (h : finish p = .next t) (he : t.engine = .running) :
    ∃ u, p = .done u ∧ t = u.advance := by
  cases p with
  | done u => exact ⟨u, rfl, (Host.Outcome.next.inj h).symm⟩
  | raised r u =>
    obtain rfl : enterFault r u = t := Host.Outcome.next.inj h
    cases he

/-- Byte writes that come to their end have all been made. -/
theorem eq_of_writeBytes_done {s u : State} {a : Nat} {bs : List Byte} (h : writeBytes s a bs = .done u) :
    u = s.setMem (Memory.writeAll s.cfg s.mem a bs) := by
  induction bs generalizing s a with
  | nil => exact (Progress.done.inj h).symm
  | cons b bs ih =>
    rcases writeByte_spec s a b with ⟨-, e⟩ | ⟨-, e⟩ <;> simp only [writeBytes, e] at h
    · exact ih h
    · cases h

/-- Where a storing instruction leaves the engine Running, each of its bytes stands at its address. -/
theorem byteAt_of_storing_running {s t : State} {a k : Nat} {bs : List Byte} {b : Byte}
    (h : finish (writeBytes s a bs) = .next t) (he : t.engine = .running) (hk : bs[k]? = some b) :
    t.byteAt (a + k) = b := by
  obtain ⟨u, hdone, rfl⟩ := eq_done_of_finish_running h he
  obtain ⟨hlt, -⟩ := List.getElem?_eq_some_iff.1 hk
  rw [State.byteAt_advance, eq_of_writeBytes_done hdone, State.byteAt_setMem, Memory.read_writeAll, if_pos (by omega),
    Nat.add_sub_cancel_left, List.getD_eq_getElem?_getD, hk, Option.getD_some]

/-- The bytes of a fetched word, as numbers (R60). -/
theorem bytes_of_fetch {u : State} {w : Word} (h : fetch u = .ok w) :
    w.toNat / 256 = (u.byteAt u.pc.toNat).toNat ∧ w.toNat % 256 = (u.byteAt (u.pc.toNat + 1)).toNat := by
  rcases readWord_spec u u.pc.toNat with ⟨-, e⟩ | ⟨-, e⟩ <;> rw [fetch, e] at h
  · obtain rfl := Except.ok.inj h
    rw [toNat_wordOfBytes]
    omega
  · cases h

/-- A byte at `a` is the high byte of the word fetched there, and the low byte of the one fetched one before it. -/
theorem fetch_of_byteAt {u : State} {w : Word} {a : Nat} {b : Byte} (h : fetch u = .ok w) (hb : u.byteAt a = b) :
    (u.pc.toNat = a → w.toNat / 256 = b.toNat) ∧ (u.pc.toNat + 1 = a → w.toNat % 256 = b.toNat) := by
  obtain ⟨hhigh, hlow⟩ := bytes_of_fetch h
  subst hb
  exact ⟨fun hpc => hpc ▸ hhigh, fun hpc => hpc ▸ hlow⟩

theorem map_toNat_decimalDigits (v : Byte) :
    (decimalDigits v).map BitVec.toNat = [v.toNat / 100, v.toNat / 10 % 10, v.toNat % 10] := by
  have hv := v.isLt
  simp only [decimalDigits, List.map_cons, List.map_nil, BitVec.toNat_ofNat, List.cons.injEq, and_true]
  omega

/-- Settles O44: each byte that the instruction lists stands at its address, in every state with that memory. -/
theorem storedBytesAreFetched : Obligations.StoredBytesAreFetched := by
  intro x s t u w _ he hcfg hmem hfetch
  have hbyte (a : Nat) : u.byteAt a = t.byteAt a := by simp only [State.byteAt, hcfg, hmem]
  refine ⟨fun hexec k hk => fetch_of_byteAt hfetch ?_, fun hexec k d hd => ?_⟩
  · refine (hbyte _).trans (byteAt_of_storing_running hexec he ?_)
    rw [List.getElem?_map, getElem?_regsUpTo x k hk, Option.map_some]
  · rw [← map_toNat_decimalDigits, List.getElem?_map, Option.map_eq_some_iff] at hd
    obtain ⟨b, hb, rfl⟩ := hd
    exact fetch_of_byteAt hfetch ((hbyte _).trans (byteAt_of_storing_running hexec he hb))

end Sys2Proof.Machine
end

section
/-! PROOFS. The loader's copy (R58). -/

namespace Sys2Proof.Machine

/-- Settles O48: the bytes of the stream that fit are its first `USER_END - USER_START`. -/
theorem loadCopiesProgram : Obligations.LoadCopiesProgram := by
  intro bytes s hidle
  refine ⟨loadBody bytes s, by simp [takeTurn, hostStep, hidle], fun k hk hfits => ?_, fun a ha => ?_, ?_⟩
  · have hcap : k < s.cfg.userEnd - s.cfg.userStart := by omega
    rw [byteAt_loadBody, if_pos (by rw [List.length_take]; omega), Nat.add_sub_cancel_left,
      List.getD_eq_getElem?_getD, List.getElem?_take_of_lt hcap, List.getElem?_eq_getElem hk, Option.getD_some]
  · rw [byteAt_loadBody, if_neg (by rw [List.length_take]; omega)]
  · simp [State.sameOutside, loadBody]

end Sys2Proof.Machine
end

section
/-! PROOFS. The font after construction (R52). -/

namespace Sys2Proof.Machine

/-- Entry `k` of row `d` of a table whose rows all have length `n`, laid out row after row. -/
theorem getElem?_flatten_of_length_eq {α : Type} {n : Nat} {rows : List (List α)} (hn : ∀ l ∈ rows, l.length = n)
    {d k : Nat} {row : List α} {x : α} (hrow : rows[d]? = some row) (hx : row[k]? = some x) :
    rows.flatten[n * d + k]? = some x := by
  induction rows generalizing d with
  | nil => simp at hrow
  | cons l rows ih =>
    obtain ⟨hl, hrows⟩ := List.forall_mem_cons.1 hn
    rw [List.flatten_cons]
    cases d with
    | zero =>
      obtain rfl : l = row := by simpa using hrow
      obtain ⟨hlt, -⟩ := List.getElem?_eq_some_iff.1 hx
      rwa [Nat.mul_zero, Nat.zero_add, List.getElem?_append_left hlt]
    | succ d =>
      rw [List.getElem?_append_right (by rw [hl, Nat.mul_succ]; omega), hl,
        show n * (d + 1) + k - n = n * d + k by rw [Nat.mul_succ]; omega]
      exact ih hrows (by simpa using hrow)

/-- After construction the font's bytes stand from `FONT_BASE` on (R52). -/
theorem State.byteAt_constructed_of_font (c : Config) {j : Nat} {b : Byte} (h : fontBytes[j]? = some b) :
    (State.constructed c).byteAt (c.fontBase + j) = b := by
  obtain ⟨hlt, -⟩ := List.getElem?_eq_some_iff.1 h
  replace hlt : j < fontSize := hlt
  rw [State.byteAt_constructed, Memory.unlisted, if_pos (by omega), Nat.add_sub_cancel_left,
    List.getD_eq_getElem?_getD, h, Option.getD_some]

/-- Settles O55: the font is R52's table, glyph after glyph of five bytes each. -/
theorem fontAtConstruction : Obligations.FontAtConstruction := by
  refine fun c => ⟨fun d k glyph row hglyph hrow => ?_, fun a ha => State.byteAt_constructed_of_out_of_font ha⟩
  have hfont : fontBytes[5 * d + k]? = some row := getElem?_flatten_of_length_eq (by decide) hglyph hrow
  rw [Nat.add_assoc]
  exact State.byteAt_constructed_of_font c hfont

end Sys2Proof.Machine
end

section
/-! PROOFS. The decoder and the encoder (R80 to R87): what every word reads as, said once, and the round trips. -/

namespace Sys2Proof

/-! ### The fields of a word as numbers (R81) -/

theorem toNat_g_ofWord (w : Word) : (Operation.ofWord w).g.toNat = w.toNat / 4096 := by
  simp only [Operation.ofWord, BitVec.extractLsb'_toNat, Nat.shiftRight_eq_div_pow]
  omega

theorem toNat_n_ofWord (w : Word) : (Operation.ofWord w).n.toNat = w.toNat % 16 := by
  simp [Operation.ofWord]

theorem toNat_nn_ofWord (w : Word) : (Operation.ofWord w).nn.toNat = w.toNat % 256 := by
  simp [Operation.ofWord]

/-! ### What a word reads as -/

/-- R86's table of the illegal words. -/
def IllegalWord (w : Word) : Prop :=
  (w.toNat / 4096 = 0x0 ∧ w.toNat ≠ 0x00E0 ∧ w.toNat ≠ 0x00EE) ∨
  (w.toNat / 4096 = 0x5 ∧ w.toNat % 16 ≠ 0) ∨
  (w.toNat / 4096 = 0x8 ∧ w.toNat % 16 ∈ [0x8, 0x9, 0xA, 0xB, 0xC, 0xD, 0xF]) ∨
  (w.toNat / 4096 = 0x9 ∧ w.toNat % 16 ≠ 0) ∨
  (w.toNat / 4096 = 0xE ∧ w.toNat % 256 ∉ [0x9E, 0xA1]) ∨
  (w.toNat / 4096 = 0xF ∧ w.toNat % 256 ∉ [0x07, 0x0A, 0x15, 0x18, 0x1E, 0x29, 0x33, 0x55, 0x65])

/-- The two things that a decoder's answer `r` to the word `w` can be: the well-formed instruction whose word `w` is, or
the rejection of `w`, which is given exactly when `illegal` holds. -/
inductive Reading (w : Word) (r : Except Reject Instr) (illegal : Prop) : Prop where
  | legal (i : Instr) (answer : r = .ok i) (wf : i.wellFormed = true) (word : encode i = w) (allowed : ¬ illegal)
  | rejected (answer : r = .error (.illegal w)) (holds : illegal)

namespace Reading

variable {w : Word} {r : Except Reject Instr} {p q : Prop}

theorem congr (h : Reading w r p) (hpq : q ↔ p) : Reading w r q := by rwa [propext hpq]

theorem of_ok (h : Reading w r p) {i : Instr} (hi : r = .ok i) : i.wellFormed = true ∧ encode i = w := by
  cases h with
  | legal j answer wf word =>
    obtain rfl : j = i := Except.ok.inj (answer.symm.trans hi)
    exact ⟨wf, word⟩
  | rejected answer => rw [hi] at answer; cases answer

theorem illegal_iff (h : Reading w r p) : r = .error (.illegal w) ↔ p := by
  cases h with
  | legal i answer _ _ allowed => simp [answer, allowed]
  | rejected answer holds => simp [answer, holds]

end Reading

/-! ### The groups with fixed bits (R85): a listed value makes the word of its row, every other value is rejected -/

theorem reading_decodeFixed (w : Word) : Reading w (decodeFixed w) (w.toNat ≠ 0x00E0 ∧ w.toNat ≠ 0x00EE) := by
  unfold decodeFixed
  split
  case h_1 hw => exact .legal .cls rfl rfl (BitVec.eq_of_toNat_eq hw.symm) fun h => h.1 hw
  case h_2 hw => exact .legal .ret rfl rfl (BitVec.eq_of_toNat_eq hw.symm) fun h => h.2 hw
  case h_3 hcls hret => exact .rejected rfl ⟨hcls, hret⟩

theorem reading_decodeSkipReg {i : Instr} {n : Nibble} {w : Word} (hi : i.wellFormed = true)
    (hw : n = 0x0#4 → encode i = w) : Reading w (decodeSkipReg i n w) (n.toNat ≠ 0) := by
  unfold decodeSkipReg
  split
  case h_1 hn => exact .legal i rfl hi (hw (BitVec.eq_of_toNat_eq hn)) fun h => h hn
  case h_2 hn => exact .rejected rfl hn

theorem reading_decodeArith {w : Word} {x y : Reg} {n : Nibble} (hw : formatXYN 0x8#4 x y n = w) :
    Reading w (decodeArith x y n w) (n.toNat ∈ [0x8, 0x9, 0xA, 0xB, 0xC, 0xD, 0xF]) := by
  have hlt : n.toNat < 16 := n.isLt
  subst hw
  unfold decodeArith
  split
  case h_10 => exact .rejected rfl (by simp only [List.mem_cons, List.not_mem_nil]; grind)
  all_goals
    rename_i hn
    exact .legal _ rfl rfl (congrArg (formatXYN 0x8#4 x y) (BitVec.eq_of_toNat_eq hn.symm)) (by simp [hn])

theorem reading_decodeKey {w : Word} {x : Reg} {nn : Byte} (hw : formatXNN 0xE#4 x nn = w) :
    Reading w (decodeKey x nn w) (nn.toNat ∉ [0x9E, 0xA1]) := by
  subst hw
  unfold decodeKey
  split
  case h_3 => exact .rejected rfl (by simp only [List.mem_cons, List.not_mem_nil]; grind)
  all_goals
    rename_i hnn
    exact .legal _ rfl rfl (congrArg (formatXNN 0xE#4 x) (BitVec.eq_of_toNat_eq hnn.symm)) (by simp [hnn])

theorem reading_decodeMisc {w : Word} {x : Reg} {nn : Byte} (hw : formatXNN 0xF#4 x nn = w) :
    Reading w (decodeMisc x nn w)
      (nn.toNat ∉ [0x07, 0x0A, 0x15, 0x18, 0x1E, 0x29, 0x33, 0x55, 0x65]) := by
  subst hw
  unfold decodeMisc
  split
  case h_10 => exact .rejected rfl (by simp only [List.mem_cons, List.not_mem_nil]; grind)
  all_goals
    rename_i hnn
    exact .legal _ rfl rfl (congrArg (formatXNN 0xF#4 x) (BitVec.eq_of_toNat_eq hnn.symm)) (by simp [hnn])

/-! ### Every word (R85, R86) -/

section Groups

/-! A word of a known group is that group's layout of its own fields, in each format of R83. -/

variable {w : Word} {g : Nibble}

theorem formatA_of_group (h : (Operation.ofWord w).g.toNat = g.toNat) : formatA g (Operation.ofWord w).nnn = w := by
  rw [← BitVec.eq_of_toNat_eq h, formatA_fields]

theorem formatXNN_of_group (h : (Operation.ofWord w).g.toNat = g.toNat) :
    formatXNN g (regOf (Operation.ofWord w).x) (Operation.ofWord w).nn = w := by
  rw [← BitVec.eq_of_toNat_eq h, formatXNN_fields]

theorem formatXYN_of_group (h : (Operation.ofWord w).g.toNat = g.toNat) :
    formatXYN g (regOf (Operation.ofWord w).x) (regOf (Operation.ofWord w).y) (Operation.ofWord w).n = w := by
  rw [← BitVec.eq_of_toNat_eq h, formatXYN_fields]

/-- A group that R86's table does not name has no illegal word. -/
theorem Reading.of_legal_group {i : Instr} {k : Nat} (hg : (Operation.ofWord w).g.toNat = k)
    (hk : k ∉ [0x0, 0x5, 0x8, 0x9, 0xE, 0xF]) (hwf : i.wellFormed = true) (hi : encode i = w) :
    Reading w (.ok i) (IllegalWord w) := by
  refine .legal i rfl hwf hi fun hillegal => hk ?_
  rw [← hg, toNat_g_ofWord]
  rcases hillegal with ⟨h, -⟩ | ⟨h, -⟩ | ⟨h, -⟩ | ⟨h, -⟩ | ⟨h, -⟩ | ⟨h, -⟩ <;> simp [h]

end Groups

/-- What the decoder answers to a word, group by group: a well-formed instruction whose word this is, or, exactly for
the words of R86's table, the rejection. -/
theorem reading_decodeWord (w : Word) : Reading w (decodeWord w) (IllegalWord w) := by
  unfold decodeWord selectInstr
  split
  case h_2 hg | h_3 hg | h_11 hg | h_12 hg => exact .of_legal_group hg (by decide) rfl (formatA_of_group hg)
  case h_4 hg | h_5 hg | h_7 hg | h_8 hg | h_13 hg =>
    exact .of_legal_group hg (by decide) rfl (formatXNN_of_group hg)
  case h_14 hg =>
    refine .of_legal_group hg (by decide) (decide_eq_true (Operation.ofWord w).n.isLt) ?_
    rw [encode, BitVec.ofNat_toNat, BitVec.setWidth_eq]
    exact formatXYN_of_group hg
  case h_1 hg => exact (reading_decodeFixed w).congr (by simp [IllegalWord, ← toNat_g_ofWord, hg])
  case h_6 hg | h_10 hg =>
    refine (reading_decodeSkipReg rfl fun hn => ?_).congr (by simp [IllegalWord, ← toNat_g_ofWord, hg, toNat_n_ofWord])
    rw [encode, ← hn]
    exact formatXYN_of_group hg
  case h_9 hg =>
    exact (reading_decodeArith (formatXYN_of_group hg)).congr
      (by simp [IllegalWord, ← toNat_g_ofWord, hg, toNat_n_ofWord])
  case h_15 hg =>
    exact (reading_decodeKey (formatXNN_of_group hg)).congr
      (by simp [IllegalWord, ← toNat_g_ofWord, hg, toNat_nn_ofWord])
  case h_16 hg =>
    exact (reading_decodeMisc (formatXNN_of_group hg)).congr
      (by simp [IllegalWord, ← toNat_g_ofWord, hg, toNat_nn_ofWord])
  case h_17 =>
    have hlt : (Operation.ofWord w).g.toNat < 16 := (Operation.ofWord w).g.isLt
    grind

/-! ### The statements -/

/-- Settles O1, format by format: the fields of the encoded word are those that were laid out, and they select the
instruction again. -/
theorem decodeOfEncode : Obligations.DecodeOfEncode := by
  intro i hwf
  cases i with
  | cls | ret => rfl
  | jp | call | ldI | jpV0 => simp [decodeWord, selectInstr, encode, ofWord_formatA]
  | seImm | sneImm | ldImm | addImm | rnd => simp [decodeWord, selectInstr, encode, ofWord_formatXNN]
  | seReg | sneReg => simp [decodeWord, selectInstr, encode, ofWord_formatXYN, decodeSkipReg]
  | ldReg | orReg | andReg | xorReg | addReg | sub | shr | subn | shl =>
    simp [decodeWord, selectInstr, encode, ofWord_formatXYN, decodeArith]
  | drw x y n =>
    have hn : n < 16 := of_decide_eq_true hwf
    simp [decodeWord, selectInstr, encode, ofWord_formatXYN, Nat.mod_eq_of_lt hn]
  | skp | sknp => simp [decodeWord, selectInstr, encode, ofWord_formatXNN, decodeKey]
  | ldVxDt | ldVxK | ldDtVx | ldStVx | addI | ldF | ldB | ldMemVx | ldVxMem =>
    simp [decodeWord, selectInstr, encode, ofWord_formatXNN, decodeMisc]

/-- Settles O2: of the two readings of a word the decoder gave the legal one. -/
theorem encodeOfDecode : Obligations.EncodeOfDecode :=
  fun w _ h => (reading_decodeWord w).of_ok h

/-- The decoder of a byte stream on a stream that has a word (R80). -/
theorem decode_cons_cons_eq_ok (hi lo : Byte) (tail rest : List Byte) (i : Instr) :
    decode (hi :: lo :: tail) = .ok (i, rest) ↔ tail = rest ∧ decodeWord (wordOfBytes hi lo) = .ok i := by
  cases h : decodeWord (wordOfBytes hi lo) <;> simp [decode, h, and_comm]

/-- Settles O3: a stream of fewer than two bytes has no word, and the number of two bytes names the word that they
make. -/
theorem decodeTakesTwoBytes : Obligations.DecodeTakesTwoBytes := by
  intro bytes rest i
  constructor
  · intro h
    match bytes, h with
    | hi :: lo :: tail, h =>
      obtain ⟨rfl, hword⟩ := (decode_cons_cons_eq_ok hi lo tail rest i).1 h
      exact ⟨hi, lo, _, rfl, toNat_wordOfBytes hi lo, hword⟩
  · rintro ⟨hi, lo, w, rfl, hw, hword⟩
    obtain rfl : w = wordOfBytes hi lo := BitVec.eq_of_toNat_eq (hw.trans (toNat_wordOfBytes hi lo).symm)
    exact (decode_cons_cons_eq_ok hi lo rest rest i).2 ⟨rfl, hword⟩

end Sys2Proof

namespace Sys2Proof.Machine

/-- The CPU's turn on a fetched word that the decoder rejects is fault entry, and no more (R86, R112). -/
theorem takeTurn_cpu_of_rejected {s : State} {w : Word} {e : Reject} (he : s.engine = .running)
    (hfetch : fetch s = .ok w) (hdecode : decodeWord w = .error e) :
    takeTurn .cpu s = .next (enterFault (malformedInstruction w) s) := by
  simp only [takeTurn, cpuTurn, if_pos he, cpuStep, hfetch, hdecode]

/-- Settles O4: the words that the decoder rejects are those of R86's table, and a rejection is fault entry. -/
theorem illegalWordsFault : Obligations.IllegalWordsFault :=
  ⟨fun w => (reading_decodeWord w).illegal_iff, fun s w he hfetch hdecode =>
    ⟨_, takeTurn_cpu_of_rejected he hfetch hdecode, enterFault_spec (malformedInstruction w) s⟩⟩

/-- Settles O5, word by word. -/
theorem wordsOfTheOpcodeMap : Obligations.WordsOfTheOpcodeMap := by
  unfold Obligations.WordsOfTheOpcodeMap
  decide

end Sys2Proof.Machine
end

section
/-! PROOFS. The engine cycle (R110 to R116): what the CPU's turn does for each outcome of the fetch and of the decoder,
the turns that pass, and the advance. -/

namespace Sys2Proof.Machine

/-- Below 0x0FFF the fetch gives the number that the two bytes at PC make (R60, R111). -/
theorem fetch_word {s : State} (h : s.pc.toNat < 0x0FFF) :
    ∃ w : Word, fetch s = .ok w ∧
      w.toNat = 256 * (s.byteAt s.pc.toNat).toNat + (s.byteAt (s.pc.toNat + 1)).toNat :=
  ⟨_, fetch_ok (Nat.succ_lt_succ h), toNat_wordOfBytes _ _⟩

/-- The CPU's turn where the fetch faults is fault entry, and no more (R111). -/
theorem takeTurn_cpu_of_fetch_error {s : State} {r : Raise} (he : s.engine = .running) (h : fetch s = .error r) :
    takeTurn .cpu s = .next (enterFault r s) := by
  simp only [takeTurn, cpuTurn, if_pos he, cpuStep, h]

/-- The CPU step on a fetched word that decodes is the instruction (R113, R116). -/
theorem cpuStep_of_decoded {s : State} {w : Word} {i : Instr} (hfetch : fetch s = .ok w)
    (hdecode : decodeWord w = .ok i) : cpuStep s = exec i s := by
  simp only [cpuStep, hfetch, hdecode]

/-- Settles O6: the word that the fetch gives is the given one, since their numbers agree. -/
theorem stepRunsDecodedInstruction : Obligations.StepRunsDecodedInstruction := by
  intro s w i hv he hnext hpc hw hdecode
  obtain ⟨u, hfetch, hu⟩ := fetch_word (s := popTurn s) (Nat.lt_of_succ_lt_succ hpc)
  obtain rfl : u = w := BitVec.eq_of_toNat_eq (hu.trans hw.symm)
  rw [step_cpu hv he hnext, cpuStep_of_decoded hfetch hdecode]

/-- Settles O7: the fault is fault entry with PC as its info, and below 0x0FFF the fetch has no other check. -/
theorem fetchFaultsOnlyPastMemory : Obligations.FetchFaultsOnlyPastMemory :=
  ⟨fun s he hpc => ⟨_, takeTurn_cpu_of_fetch_error he (fetch_error (Nat.succ_le_succ hpc)), enterFault_spec _ s⟩,
    fun _ => fetch_word⟩

/-- The CPU's turn passes while the engine is not Running (R110). -/
theorem takeTurn_cpu_of_not_running {s : State} (h : s.engine ≠ .running) : takeTurn .cpu s = .next s :=
  if_neg h

/-- The CPU's turn passes while it is held at FX0A (R234). -/
theorem takeTurn_cpu_of_held {s : State} (h : cpuHeld s) : takeTurn .cpu s = .next s := by
  obtain ⟨he, hkey, w, x, hfetch, hdecode⟩ := h
  simp only [takeTurn, cpuTurn, if_pos he, cpuStep_of_decoded hfetch hdecode, exec, execLdVxK, hkey]

/-- A host action that the engine's state does not accept changes nothing (R263). -/
theorem hostStep_of_disabled {a : HostAction} {s : State} (h : ¬ turnEnabled (.host a) s) : hostStep a s = s := by
  rcases hostStep_cases a s with
    ⟨_, rfl, he, -⟩ | ⟨_, _, rfl, he, -⟩ | ⟨rfl, he, -⟩ | ⟨rfl, he, -⟩ | ⟨_, rfl, -⟩ | e
  exacts [absurd he h, absurd he h, absurd he h, absurd he h, absurd trivial h, e]

/-- Settles O10, agent by agent; the CPU's turn is disabled in two ways. -/
theorem disabledTurnsPass : Obligations.DisabledTurnsPass := by
  intro turn s h
  cases turn with
  | cpu =>
    by_cases he : s.engine = .running
    · exact takeTurn_cpu_of_held (not_not.1 fun hheld => h ⟨he, hheld⟩)
    · exact takeTurn_cpu_of_not_running he
  | delayTick => exact congrArg Host.Outcome.next (if_neg h)
  | soundTick => exact congrArg Host.Outcome.next (if_neg h)
  | host a => exact congrArg Host.Outcome.next (hostStep_of_disabled h)

/-- The body of an instruction that is no control transfer comes to its end with PC as it was, or raises a fault; the
one that has no end is FX0A with no key (R114, R234). -/
theorem exec_eq_finish {i : Instr} {s : State} (hi : isControlTransfer i = false)
    (hkey : ∀ x, i = .ldVxK x → s.key ≠ none) : ∃ p, exec i s = finish p ∧ ∀ u, p = .done u → u.pc = s.pc := by
  cases i with
  | ret | jp | call | jpV0 | seImm | sneImm | seReg | sneReg | skp | sknp => cases hi
  | cls | ldImm | addImm | ldReg | orReg | andReg | xorReg | addReg | sub | shr | subn | shl | rnd | ldI | addI | ldF
  | ldVxDt | ldDtVx | ldStVx => exact ⟨.done _, rfl, by rintro _ ⟨⟩; rfl⟩
  | drw x y n =>
    rcases readSprite_spec (s.writeV vf 0#8) s.i.toNat n with ⟨-, e⟩ | ⟨-, -, e⟩ <;> simp only [exec, execDrw, e]
    · exact ⟨_, rfl, by rintro _ ⟨⟩; rfl⟩
    · exact ⟨_, rfl, by rintro _ ⟨⟩⟩
  | ldVxK x =>
    obtain ⟨k, e⟩ := Option.ne_none_iff_exists'.1 (hkey x rfl)
    simp only [exec, execLdVxK, e]
    exact ⟨_, rfl, by rintro _ ⟨⟩; rfl⟩
  | ldB | ldMemVx => exact ⟨_, rfl, fun u hu => by rw [eq_of_writeBytes_done hu, State.setMem_pc]⟩
  | ldVxMem x =>
    rcases readIntoRegs_cases s s.i.toNat (regsUpTo x) with ⟨v, e⟩ | ⟨v, k, e⟩ <;> simp only [exec, execLdVxMem, e]
    · exact ⟨_, rfl, by rintro _ ⟨⟩; rfl⟩
    · exact ⟨_, rfl, by rintro _ ⟨⟩⟩

/-- Settles O11: an instruction that leaves the engine Running came to its end, and its end is the advance. -/
theorem advanceByTwo : Obligations.AdvanceByTwo := by
  intro i s t hexec _ ht hi hkey
  obtain ⟨p, hp, hpc⟩ := exec_eq_finish hi hkey
  obtain ⟨u, hdone, rfl⟩ := eq_done_of_finish_running (hp.symm.trans hexec) ht
  rw [State.advance_pc, hpc u hdone]

end Sys2Proof.Machine
end

section
/-! PROOFS. Control transfer (R130 to R138): the targets as numbers, what CALL and RET answer in each state of the call
stack, and the skips. -/

namespace Sys2Proof.Machine

/-! ### Writing PC -/

theorem toNat_addressOf (nnn : Addr12) : (addressOf nnn).toNat = nnn.toNat :=
  BitVec.toNat_setWidth_of_le (by decide)

/-- The sum of R134 fits in 16 bits. -/
theorem toNat_offsetAddress (nnn : Addr12) (v0 : Byte) : (offsetAddress nnn v0).toNat = nnn.toNat + v0.toNat := by
  have hnnn : nnn.toNat < 4096 := nnn.isLt
  have hv0 : v0.toNat < 256 := v0.isLt
  rw [offsetAddress, BitVec.toNat_add, toNat_addressOf, BitVec.toNat_setWidth_of_le (by decide)]
  exact Nat.mod_eq_of_lt (by omega)

theorem sameOutside_setPc (s : State) (a : Word) : State.sameOutside [.pc] s (s.setPc a) := by
  simp [State.sameOutside]

theorem sameOutside_setStack_setPc (s : State) (l : List Word) (a : Word) :
    State.sameOutside [.pc, .stack] s ((s.setStack l).setPc a) := by
  simp [State.sameOutside]

/-- Settles O13: the target is `NNN` widened, and a write of PC writes nothing else. -/
theorem jumpSetsPc : Obligations.JumpSetsPc := fun nnn s =>
  ⟨decodeOfEncode (.jp nnn) rfl, _, rfl, toNat_addressOf nnn, sameOutside_setPc s _⟩

/-- Settles O14: the target's sum fits in PC. -/
theorem jumpOffsetAddsV0 : Obligations.JumpOffsetAddsV0 := fun nnn s =>
  ⟨decodeOfEncode (.jpV0 nnn) rfl, _, rfl, toNat_offsetAddress nnn _, sameOutside_setPc s _⟩

/-! ### The call stack -/

section CallStack

variable {s : State}

theorem exec_call_of_room (nnn : Addr12) (h : s.stack.length < s.cfg.stackDepth) :
    exec (.call nnn) s = .next ((s.setStack (s.stack ++ [s.pc + 2#16])).setPc (addressOf nnn)) := by
  have hpush : push s (s.pc + 2#16) = .ok (s.setStack (s.stack ++ [s.pc + 2#16])) := if_neg (Nat.not_le.2 h)
  simp only [exec, execCall, hpush]

theorem exec_call_of_full (nnn : Addr12) (h : s.cfg.stackDepth ≤ s.stack.length) :
    exec (.call nnn) s = .next (enterFault { kind := .stackOverflow, info := .none } s) := by
  have hpush : push s (s.pc + 2#16) = .error { kind := .stackOverflow, info := .none } := if_pos h
  simp only [exec, execCall, hpush]

theorem exec_ret_of_concat {l : List Word} {a : Word} (h : s.stack = l ++ [a]) :
    exec .ret s = .next ((s.setStack l).setPc a) := by
  have hpop : pop s = .ok (a, s.setStack l) := by simp [pop, h]
  simp only [exec, execRet, hpop]

theorem exec_ret_of_empty (h : s.stack = []) :
    exec .ret s = .next (enterFault { kind := .stackUnderflow, info := .none } s) := by
  have hpop : pop s = .error { kind := .stackUnderflow, info := .none } := by simp [pop, h]
  simp only [exec, execRet, hpop]

end CallStack

/-- Settles O15: the call with room on the stack, and fault entry on a full one. -/
theorem callPushesReturnAddress : Obligations.CallPushesReturnAddress := fun nnn s =>
  ⟨decodeOfEncode (.call nnn) rfl,
    fun hroom => ⟨_, exec_call_of_room nnn hroom, rfl, toNat_addressOf nnn, sameOutside_setStack_setPc s _ _⟩,
    fun hfull => ⟨_, exec_call_of_full nnn hfull, enterFault_spec _ s⟩⟩

/-- Settles O16: the return, and fault entry on an empty stack. -/
theorem returnPopsStack : Obligations.ReturnPopsStack :=
  ⟨decodeOfEncode .ret rfl,
    fun s l a hstack => ⟨_, exec_ret_of_concat hstack, rfl, rfl, sameOutside_setStack_setPc s l a⟩,
    fun s hempty => ⟨_, exec_ret_of_empty hempty, enterFault_spec _ s⟩⟩

/-- Settles O17: the entry that the return pops is the one that the call pushed. -/
theorem returnAfterCall : Obligations.ReturnAfterCall := by
  intro nnn s hroom
  refine ⟨_, _, exec_call_of_room nnn hroom, exec_ret_of_concat rfl, rfl, ?_⟩
  simp [State.sameOutside]

/-! ### The skips -/

/-- What a skip does: PC + 4 where its condition `c` is true, PC + 2 where it is false, and nothing else (R130). -/
theorem skip_spec {i : Instr} {s : State} {c : Bool} {p q : Prop} (hexec : exec i s = .next (s.skipIf c))
    (hp : p → c = true) (hq : q → c = false) :
    ∃ t, exec i s = .next t ∧ State.sameOutside [.pc] s t ∧ (p → t.pc = s.pc + 4#16) ∧ (q → t.pc = s.pc + 2#16) :=
  ⟨_, hexec, sameOutside_setPc s _, fun h => by simp [hp h], fun h => by simp [hq h]⟩

/-- Settles O18: both are skips, on opposite conditions. -/
theorem skipsOnImmediate : Obligations.SkipsOnImmediate := fun x nn _ =>
  ⟨⟨decodeOfEncode (.seImm x nn) rfl, skip_spec rfl beq_iff_eq.2 beq_eq_false_iff_ne.2⟩,
    ⟨decodeOfEncode (.sneImm x nn) rfl, skip_spec rfl bne_iff_ne.2 bne_eq_false_iff_eq.2⟩⟩

/-- A register comparison whose `N` is not 0 is in R86's table. -/
theorem decodeWord_registerSkip_illegal {g n : Nibble} (hg : g = 0x5#4 ∨ g = 0x9#4) (hn : n ≠ 0) (x y : Reg) :
    decodeWord (formatXYN g x y n) = .error (.illegal (formatXYN g x y n)) := by
  obtain ⟨hgroup, -, -, hnibble⟩ := ofWord_formatXYN g x y n
  have hn' : n.toNat ≠ 0 := fun h => hn (BitVec.eq_of_toNat_eq h)
  rw [(reading_decodeWord _).illegal_iff, IllegalWord, ← toNat_g_ofWord, ← toNat_n_ofWord, hgroup, hnibble]
  rcases hg with rfl | rfl
  · exact .inr (.inl ⟨rfl, hn'⟩)
  · exact .inr (.inr (.inr (.inl ⟨rfl, hn'⟩)))

/-- Settles O19: both are skips, on opposite conditions, and the words with another `N` are in R86's table. -/
theorem skipsOnRegisters : Obligations.SkipsOnRegisters := fun x y _ =>
  ⟨⟨decodeOfEncode (.seReg x y) rfl, skip_spec rfl beq_iff_eq.2 beq_eq_false_iff_ne.2⟩,
    ⟨decodeOfEncode (.sneReg x y) rfl, skip_spec rfl bne_iff_ne.2 bne_eq_false_iff_eq.2⟩,
    fun _ hn => ⟨decodeWord_registerSkip_illegal (.inl rfl) hn x y, decodeWord_registerSkip_illegal (.inr rfl) hn x y⟩⟩

end Sys2Proof.Machine
end

section
/-! PROOFS. Register loads, arithmetic and logic (R150 to R166): what the two ends of these instructions leave, one that
writes a register and one that writes VF after it, and the results and the flags as numbers. -/

namespace Sys2Proof.Machine

/-! ### The two ends of an instruction -/

/-- What one register write and the advance leave. -/
theorem writeV_advance_spec (x : Reg) (b : Byte) (s : State) :
    State.wroteReg x b s (s.writeV x b).advance ∧ (s.writeV x b).advance.pc = s.pc + 2#16 ∧
      State.sameOutside [.regs, .pc] s (s.writeV x b).advance := by
  refine ⟨⟨State.readV_writeV_self s x b, fun r hr => State.readV_writeV_ne s x b hr⟩, rfl, ?_⟩
  simp [State.sameOutside]

/-- What a result, then its flag in VF, and the advance leave: the flag is there whatever the destination (R150). -/
theorem writeV_flag_advance_spec {x : Reg} {b : Byte} {f : Bool} {p : Prop} (hf : f = true ↔ p) (s : State) :
    State.wroteFlagged x b p s ((s.writeV x b).writeV vf (flagByte f)).advance ∧
      ((s.writeV x b).writeV vf (flagByte f)).advance.pc = s.pc + 2#16 ∧
      State.sameOutside [.regs, .pc] s ((s.writeV x b).writeV vf (flagByte f)).advance := by
  refine ⟨⟨fun hp => ?_, fun hp => ?_, fun hx => ?_, fun r hx hvf => ?_⟩, rfl, by simp [State.sameOutside]⟩
  · simp [flagByte, hf.2 hp]
  · simp [flagByte, eq_false_of_ne_true (mt hf.1 hp)]
  · rw [State.readV_advance, State.readV_writeV_ne _ _ _ hx, State.readV_writeV_self]
  · rw [State.readV_advance, State.readV_writeV_ne _ _ _ hvf, State.readV_writeV_ne _ _ _ hx]

/-! ### The results as numbers -/

theorem toNat_sumByte (a b : Byte) : (sumByte a b).toNat = (a.toNat + b.toNat) % 256 :=
  BitVec.toNat_ofNat _ _

theorem toNat_diffByte (a b : Byte) : ((diffByte a b).toNat : Int) = (a.toNat - b.toNat : Int) % 256 := by
  rw [diffByte, BitVec.toNat_ofInt]
  exact Int.toNat_of_nonneg (Int.emod_nonneg _ (by decide))

theorem toNat_shiftRightByte (a : Byte) : (shiftRightByte a).toNat = a.toNat / 2 := by
  rw [shiftRightByte, BitVec.toNat_ushiftRight, Nat.shiftRight_eq_div_pow, Nat.pow_one]

theorem toNat_shiftLeftByte (a : Byte) : (shiftLeftByte a).toNat = 2 * a.toNat % 256 := by
  rw [shiftLeftByte, BitVec.toNat_shiftLeft, Nat.shiftLeft_eq, Nat.pow_one, Nat.mul_comm]

/-! ### The flags as comparisons -/

theorem carryFlag_iff (a b : Byte) : carryFlag a b = true ↔ a.toNat + b.toNat > 0xFF :=
  decide_eq_true_iff

theorem notBorrowFlag_iff (a b : Byte) : notBorrowFlag a b = true ↔ a.toNat ≥ b.toNat :=
  decide_eq_true_iff

/-! ### The statements -/

/-- Settles O23: the sum and its carry are of the old values, and VF is written last. -/
theorem addSetsCarry : Obligations.AddSetsCarry := fun x y s =>
  ⟨decodeOfEncode (.addReg x y) rfl, _, _, rfl, toNat_sumByte _ _, writeV_flag_advance_spec (carryFlag_iff _ _) s⟩

/-- Settles O24: SUBN is SUB with the operands exchanged. -/
theorem subtractSetsNotBorrow : Obligations.SubtractSetsNotBorrow := fun x y s =>
  ⟨⟨decodeOfEncode (.sub x y) rfl, _, _, rfl, toNat_diffByte _ _,
      writeV_flag_advance_spec (notBorrowFlag_iff _ _) s⟩,
    ⟨decodeOfEncode (.subn x y) rfl, _, _, rfl, toNat_diffByte _ _,
      writeV_flag_advance_spec (notBorrowFlag_iff _ _) s⟩⟩

/-- Settles O20: one register write, of the immediate or of `VY`. -/
theorem loadsWriteOneRegister : Obligations.LoadsWriteOneRegister := fun x y nn s =>
  ⟨⟨decodeOfEncode (.ldImm x nn) rfl, _, rfl, writeV_advance_spec x nn s⟩,
    ⟨decodeOfEncode (.ldReg x y) rfl, _, rfl, writeV_advance_spec x (s.readV y) s⟩⟩

/-- Settles O21: one register write, of the sum. -/
theorem addImmediateSetsNoFlag : Obligations.AddImmediateSetsNoFlag := by
  intro x nn s
  obtain ⟨⟨hx, hother⟩, hpc, hframe⟩ := writeV_advance_spec x (sumByte (s.readV x) nn) s
  exact ⟨decodeOfEncode (.addImm x nn) rfl, _, rfl, (congrArg BitVec.toNat hx).trans (toNat_sumByte _ _),
    hother, hpc, hframe⟩

/-- What an instruction that writes `b` in `VX`, and no flag, leaves, bit by bit. -/
theorem finishWrite_bits_spec {i : Instr} {s : State} {x : Reg} {b : Byte} {bit : Nat → Bool}
    (hexec : exec i s = finishWrite x b s) (hbit : ∀ k, b.getLsbD k = bit k) :
    ∃ t, exec i s = .next t ∧ t.pc = s.pc + 2#16 ∧ State.sameOutside [.regs, .pc] s t ∧
      (∀ k, (t.readV x).getLsbD k = bit k) ∧ ∀ r, r ≠ x → t.readV r = s.readV r := by
  obtain ⟨⟨hx, hother⟩, hpc, hframe⟩ := writeV_advance_spec x b s
  exact ⟨_, hexec, hpc, hframe, fun k => by rw [hx, hbit], hother⟩

/-- Settles O22: one register write each, of a bitwise operation. -/
theorem logicSetsNoFlag : Obligations.LogicSetsNoFlag := fun x y _ =>
  ⟨⟨decodeOfEncode (.orReg x y) rfl, finishWrite_bits_spec rfl fun _ => BitVec.getLsbD_or⟩,
    ⟨decodeOfEncode (.andReg x y) rfl, finishWrite_bits_spec rfl fun _ => BitVec.getLsbD_and⟩,
    ⟨decodeOfEncode (.xorReg x y) rfl, finishWrite_bits_spec rfl fun _ => BitVec.getLsbD_xor⟩⟩

/-- Settles O25: the meaning does not take the `Y` field, and the flag is a bit of the old value. -/
theorem shiftsByOneInPlace : Obligations.ShiftsByOneInPlace := fun x y s =>
  ⟨⟨decodeOfEncode (.shr x y) rfl, _, _, rfl, toNat_shiftRightByte _, writeV_flag_advance_spec Iff.rfl s⟩,
    ⟨decodeOfEncode (.shl x y) rfl, _, _, rfl, toNat_shiftLeftByte _, writeV_flag_advance_spec Iff.rfl s⟩⟩

/-- Settles O26: one register write, in the state that has counted the draw. -/
theorem randomByteIsMasked : Obligations.RandomByteIsMasked := by
  intro x nn s
  obtain ⟨hwrote, hpc, -⟩ := writeV_advance_spec x (Config.freeByte s.draws &&& nn) s.countDraw
  refine ⟨decodeOfEncode (.rnd x nn) rfl, _, rfl, hwrote, rfl, hpc, ?_⟩
  simp [State.sameOutside]

end Sys2Proof.Machine
end

section
/-! PROOFS. Display (R180 to R187): the clear; the state that a draw leaves, field by field and pixel by pixel;
and two draws in a row. -/

namespace Sys2Proof.Machine

/-- Settles O28: a blank framebuffer, then the refresh and the advance. -/
theorem clearTurnsEveryPixelOff : Obligations.ClearTurnsEveryPixelOff := by
  refine ⟨decodeOfEncode .cls rfl, fun s => ⟨_, rfl, State.pixel_blank rfl, rfl, rfl, rfl, ?_⟩⟩
  simp [State.sameOutside, requestRefresh, clearDisplay]

/-! ### The operands of a draw -/

/-- The coordinate that a draw reads from a register: VF has been reset by then (R186). -/
def drawCoordinate (x : Reg) (s : State) : Nat := if x = vf then 0 else (s.readV x).toNat

theorem toNat_readV_reset_vf (x : Reg) (s : State) : ((s.writeV vf 0#8).readV x).toNat = drawCoordinate x s := by
  rw [State.readV_writeV, apply_ite BitVec.toNat]
  rfl

/-- The `n` bytes at `I`. -/
def drawRowsAtI (n : Nat) (s : State) : List Byte := (List.range n).map fun k => s.byteAt (s.i.toNat + k)

theorem length_drawRowsAtI (n : Nat) (s : State) : (drawRowsAtI n s).length = n := by
  rw [drawRowsAtI, List.length_map, List.length_range]

/-- The pixels that a draw covers. -/
def drawCovers (x y : Reg) (n : Nat) (s : State) : Nat → Nat → Prop :=
  spriteCovers s.cfg (drawCoordinate x s) (drawCoordinate y s) (drawRowsAtI n s)

theorem drawCovers_iff (x y : Reg) (n : Nat) (s : State) (px py : Nat) :
    drawCovers x y n s px py ↔
      ∃ r < n, ∃ c < 8, (s.byteAt (s.i.toNat + r)).getLsbD (7 - c) = true ∧
        px = (drawCoordinate x s + c) % s.cfg.displayW ∧ py = (drawCoordinate y s + r) % s.cfg.displayH := by
  have hrow : ∀ r row, (drawRowsAtI n s)[r]? = some row ↔ r < n ∧ s.byteAt (s.i.toNat + r) = row := by
    intro r row
    by_cases h : r < n <;> simp [drawRowsAtI, h]
  simp only [drawCovers, spriteCovers, hrow, spriteBit, eq_comm (a := px), eq_comm (a := py)]
  constructor
  · rintro ⟨r, -, ⟨hr, rfl⟩, hcol⟩
    exact ⟨r, hr, hcol⟩
  · rintro ⟨r, hr, hcol⟩
    exact ⟨r, _, ⟨hr, rfl⟩, hcol⟩

theorem drawCovers_in_grid {x y : Reg} {n : Nat} {s : State} (hv : s.cfg.valid = true) {px py : Nat}
    (h : drawCovers x y n s px py) : px < s.cfg.displayW ∧ py < s.cfg.displayH := by
  obtain ⟨-, -, -, hw, hh, -⟩ := s.cfg.valid_iff.1 hv
  exact spriteCovers_in_grid (by omega) (by omega) h

/-- A draw covers a pixel exactly when a byte of its sprite is set. -/
theorem exists_drawCovers_iff (x y : Reg) (n : Nat) (s : State) :
    (∃ px py, drawCovers x y n s px py) ↔ ∃ r < n, s.byteAt (s.i.toNat + r) ≠ 0#8 := by
  simp only [drawCovers_iff]
  constructor
  · rintro ⟨px, py, r, hr, c, -, hbit, -⟩
    refine ⟨r, hr, fun h => ?_⟩
    simp [h] at hbit
  · rintro ⟨r, hr, hbyte⟩
    obtain ⟨k, hk, hbit⟩ : ∃ k < 8, (s.byteAt (s.i.toNat + r)).getLsbD k = true := by
      by_contra! h
      exact hbyte (BitVec.eq_of_getLsbD_eq fun k hk => by simpa using h k hk)
    exact ⟨_, _, r, hr, 7 - k, by omega, by rwa [show 7 - (7 - k) = k by omega], rfl, rfl⟩

/-! ### The state that a draw leaves -/

/-- What a draw whose rows lie in memory leaves. -/
def afterDraw (x y : Reg) (n : Nat) (s : State) : State :=
  (drawFetched x y (drawRowsAtI n s) (s.writeV vf 0#8)).advance

theorem exec_drw_of_fits {n : Nat} {s : State} (x y : Reg) (h : n = 0 ∨ s.i.toNat + n ≤ memSize) :
    exec (.drw x y n) s = .next (afterDraw x y n s) := by
  obtain ⟨-, hrows⟩ | ⟨hpos, hbeyond, -⟩ := readSprite_spec (s.writeV vf 0#8) s.i.toNat n
  · simp only [exec, execDrw, hrows]
    rfl
  · omega

theorem exec_drw_of_beyond {n : Nat} {s : State} (x y : Reg) (hn : n ≠ 0) (h : memSize < s.i.toNat + n) :
    exec (.drw x y n) s = .next (enterFault (outOfRange (max s.i.toNat memSize)) (s.writeV vf 0#8)) := by
  obtain ⟨hfits, -⟩ | ⟨-, -, hrows⟩ := readSprite_spec (s.writeV vf 0#8) s.i.toNat n
  · omega
  · simp only [exec, execDrw, hrows]
    rfl

section AfterDraw

variable (x y : Reg) (n : Nat) (s : State)

/-- What one draw makes of the grid. -/
def drawnCanvas : Canvas :=
  drawSprite s.cfg s.display (drawCoordinate x s) (drawCoordinate y s) (drawRowsAtI n s)

theorem afterDraw_eq : afterDraw x y n s =
    (requestRefresh (((s.writeV vf 0#8).setDisplay (drawnCanvas x y n s).display).writeV vf
      (flagByte (drawnCanvas x y n s).collided))).advance := by
  simp only [afterDraw, drawFetched, toNat_readV_reset_vf, drawnCanvas]
  rfl

theorem afterDraw_display : (afterDraw x y n s).display = (drawnCanvas x y n s).display := by
  rw [afterDraw_eq]
  rfl

theorem readV_vf_afterDraw : (afterDraw x y n s).readV vf = flagByte (drawnCanvas x y n s).collided := by
  simp [afterDraw_eq, requestRefresh]

theorem readV_afterDraw_of_ne {r : Reg} (hr : r ≠ vf) : (afterDraw x y n s).readV r = s.readV r := by
  simp [afterDraw_eq, requestRefresh, State.readV_writeV_ne _ _ _ hr]

theorem sameOutside_afterDraw : State.sameOutside [.regs, .display, .dt, .pc] s (afterDraw x y n s) := by
  simp [State.sameOutside, afterDraw, drawFetched, requestRefresh]

theorem drawCoordinate_afterDraw (z : Reg) : drawCoordinate z (afterDraw x y n s) = drawCoordinate z s := by
  unfold drawCoordinate
  split_ifs with hz
  · rfl
  · rw [readV_afterDraw_of_ne x y n s hz]

/-- A second draw covers the pixels of the first: it reads the same coordinates, `I`, rows and configuration. -/
theorem drawCovers_afterDraw : drawCovers x y n (afterDraw x y n s) = drawCovers x y n s := by
  simp only [drawCovers, drawCoordinate_afterDraw]
  rfl

end AfterDraw

/-! ### The pixels of a draw, on a full grid of a valid configuration -/

section FullGrid

variable {n : Nat} {s : State} (x y : Reg) (hn : n < 16) (hv : s.cfg.valid = true)
  (hfull : s.display.length = s.cfg.displayW * s.cfg.displayH)

include hn hv hfull

/-- What the blit engine's laws say of one draw's canvas. -/
theorem drawnCanvas_spec :
    (drawnCanvas x y n s).display.length = s.display.length ∧
      (∀ px < s.cfg.displayW, ∀ py, (gridAt s.cfg (drawnCanvas x y n s).display px py = true ↔
        ¬ (gridAt s.cfg s.display px py = true ↔ drawCovers x y n s px py))) ∧
      ((drawnCanvas x y n s).collided = true ↔
        ∃ px py, drawCovers x y n s px py ∧ gridAt s.cfg s.display px py = true) := by
  obtain ⟨-, -, -, hw, hh, -⟩ := s.cfg.valid_iff.1 hv
  exact drawSprite_spec _ _ hfull hw (by omega) (by rw [length_drawRowsAtI]; omega)

theorem length_display_afterDraw : (afterDraw x y n s).display.length = s.cfg.displayW * s.cfg.displayH := by
  rw [afterDraw_display, (drawnCanvas_spec x y hn hv hfull).1, hfull]

/-- A draw is an exclusive or (R181); where there is no pixel, none is set and none is covered. -/
theorem pixel_afterDraw_iff (px py : Nat) :
    (afterDraw x y n s).pixel px py = true ↔ ¬ (s.pixel px py = true ↔ drawCovers x y n s px py) := by
  by_cases hin : px < s.cfg.displayW ∧ py < s.cfg.displayH
  · rw [State.pixel_eq_gridAt (s := afterDraw x y n s) hin.1 hin.2, State.pixel_eq_gridAt hin.1 hin.2,
      afterDraw_display]
    exact (drawnCanvas_spec x y hn hv hfull).2.1 px hin.1 py
  · have hcovers : ¬ drawCovers x y n s px py := mt (drawCovers_in_grid hv) hin
    rw [State.pixel_of_out (s := afterDraw x y n s) hin, State.pixel_of_out hin]
    simp [hcovers]

/-- The collision flag of a draw says whether a covered pixel was set (R184). -/
theorem collided_drawnCanvas_iff :
    (drawnCanvas x y n s).collided = true ↔ ∃ px py, drawCovers x y n s px py ∧ s.pixel px py = true := by
  rw [(drawnCanvas_spec x y hn hv hfull).2.2]
  refine exists_congr fun px => exists_congr fun py => and_congr_right fun h => ?_
  obtain ⟨hpx, hpy⟩ := drawCovers_in_grid hv h
  rw [State.pixel_eq_gridAt hpx hpy]

/-- The covered pixels that are set after a draw are those that it turned on. -/
theorem turnedOn_afterDraw_iff (px py : Nat) :
    drawCovers x y n s px py ∧ (afterDraw x y n s).pixel px py = true ↔
      s.pixel px py = false ∧ (afterDraw x y n s).pixel px py = true := by
  rw [pixel_afterDraw_iff x y hn hv hfull, ← Bool.not_eq_true]
  tauto

end FullGrid

theorem flagByte_eq_one_iff (f : Bool) : flagByte f = 1#8 ↔ f = true := by
  cases f <;> decide

theorem flagByte_eq_zero_iff (f : Bool) : flagByte f = 0#8 ↔ ¬ f = true := by
  cases f <;> decide

/-- Settles O29: the draw by the blit engine's laws, and fault entry once VF is reset. -/
theorem drawXorsSprite : Obligations.DrawXorsSprite := by
  intro x y n s hn hv hfull
  have hcollided := collided_drawnCanvas_iff x y hn hv hfull
  refine ⟨decodeOfEncode (.drw x y n) (decide_eq_true hn), fun hfits => ?_, fun hn0 hbeyond => ?_⟩
  · refine ⟨_, drawCoordinate x s, drawCoordinate y s, drawCovers x y n s, exec_drw_of_fits x y hfits, rfl, rfl,
      drawCovers_iff x y n s, fun px _ py _ => pixel_afterDraw_iff x y hn hv hfull px py, fun hset => ?_,
      fun hset => ?_, fun r hr => readV_afterDraw_of_ne x y n s hr, rfl, rfl, rfl, sameOutside_afterDraw x y n s⟩
    · rw [readV_vf_afterDraw, flagByte_eq_one_iff, hcollided]
      exact hset
    · rw [readV_vf_afterDraw, flagByte_eq_zero_iff, hcollided]
      exact hset
  · obtain ⟨hfault, -⟩ := enterFault_spec (outOfRange (max s.i.toNat memSize)) (s.writeV vf 0#8)
    refine ⟨_, exec_drw_of_beyond x y hn0 hbeyond, hfault,
      ⟨State.readV_writeV_self s vf 0#8, fun r hr => State.readV_writeV_ne s vf 0#8 hr⟩, ?_⟩
    simp [State.sameOutside]

/-- Settles O30: the second draw covers the pixels of the first, so it undoes the exclusive or, and it collides on the
covered pixels that the first draw turned on. -/
theorem drawTwiceRestoresDisplay : Obligations.DrawTwiceRestoresDisplay := by
  intro x y n s hn hv hfull hfits
  have hfull' := length_display_afterDraw x y hn hv hfull
  have hfirst := pixel_afterDraw_iff x y hn hv hfull
  have hsecond := pixel_afterDraw_iff (s := afterDraw x y n s) x y hn hv hfull'
  have hcollided := collided_drawnCanvas_iff (s := afterDraw x y n s) x y hn hv hfull'
  rw [drawCovers_afterDraw] at hsecond hcollided
  have hvf : (afterDraw x y n (afterDraw x y n s)).readV vf = 1#8 ↔
      ∃ px py, s.pixel px py = false ∧ (afterDraw x y n s).pixel px py = true := by
    rw [readV_vf_afterDraw, flagByte_eq_one_iff, hcollided]
    exact exists_congr fun px => exists_congr fun py =>
      turnedOn_afterDraw_iff x y hn hv hfull px py
  refine ⟨_, _, exec_drw_of_fits x y hfits, exec_drw_of_fits (s := afterDraw x y n s) x y hfits, fun px py => ?_, hvf,
    fun hclear => ?_, ?_⟩
  · rw [Bool.eq_iff_iff, hsecond, hfirst]
    tauto
  · rw [hvf, ← exists_drawCovers_iff x y]
    refine exists_congr fun px => exists_congr fun py => ?_
    simp [hfirst, hclear]
  · rw [readV_vf_afterDraw, flagByte_eq_one_iff, flagByte_eq_zero_iff]
    exact em _

end Sys2Proof.Machine
end

section
/-! PROOFS. Timers, the three instructions (R201 to R204): what a write of DT or of ST and the advance leave, and the
latch that FX18 leaves. -/

namespace Sys2Proof.Machine

theorem sameOutside_setDt_advance (s : State) (c : Timer) : State.sameOutside [.dt, .pc] s (s.setDt c).advance := by
  simp [State.sameOutside]

theorem sameOutside_setSt_advance (s : State) (c : Timer) : State.sameOutside [.st, .pc] s (s.setSt c).advance := by
  simp [State.sameOutside]

/-- FX18's latch after a write of `b`: a nonzero value sets it, and zero leaves it (R203). -/
theorem latch_or_nonzero_spec (latch : Bool) (b : Byte) :
    (b ≠ 0#8 → (latch || decide (b ≠ 0#8)) = true) ∧ (b = 0#8 → (latch || decide (b ≠ 0#8)) = latch) := by
  refine ⟨fun hb => ?_, fun hb => ?_⟩
  · rw [decide_eq_true hb, Bool.or_true]
  · rw [decide_eq_false (not_not.2 hb), Bool.or_false]

/-- Settles O31: FX07 is one register write of the counter; FX15 and FX18 are one timer write each, of `VX`, with the
latch kept by the first and joined with whether `VX` is nonzero by the second. -/
theorem timerInstructions : Obligations.TimerInstructions := by
  intro x s
  obtain ⟨hset, hkept⟩ := latch_or_nonzero_spec s.st.latch (s.readV x)
  refine ⟨⟨decodeOfEncode (.ldVxDt x) rfl, ?ldVxDt⟩, ⟨decodeOfEncode (.ldDtVx x) rfl, ?ldDtVx⟩,
    ⟨decodeOfEncode (.ldStVx x) rfl, ?ldStVx⟩⟩
  case ldVxDt => exact ⟨_, rfl, writeV_advance_spec x s.dt.counter s⟩
  case ldDtVx => exact ⟨_, rfl, rfl, rfl, rfl, sameOutside_setDt_advance s _⟩
  case ldStVx => exact ⟨_, rfl, rfl, hset, hkept, rfl, sameOutside_setSt_advance s _⟩

end Sys2Proof.Machine
end

section
/-! PROOFS. Index register and memory transfer (R211 to R216): the values that are written to `I`; what byte writes and
reads into registers leave, both where they come to their end and where they fault; and FX65 after FX55. -/

namespace Sys2Proof.Machine

/-! ### The index register -/

theorem sameOutside_setI_advance (s : State) (a : Word) : State.sameOutside [.i, .pc] s (s.setI a).advance := by
  simp [State.sameOutside]

/-- In a valid configuration the address of a glyph fits in `I` (R213). -/
theorem toNat_glyphAddress {c : Config} (hv : c.valid = true) (v : Byte) :
    (glyphAddress c v).toNat = c.fontBase + 5 * (v.toNat % 16) := by
  obtain ⟨hfont, hstart, hend, -⟩ := (Config.valid_iff c).1 hv
  have hfits : c.fontBase + 80 ≤ 4096 := hfont.trans (hstart.trans hend)
  rw [glyphAddress, BitVec.toNat_ofNat]
  exact Nat.mod_eq_of_lt (by omega)

/-- Settles O37: one write of `I` each, of `NNN`, of the sum modulo 2^16 and of the glyph's address. -/
theorem indexRegisterWriters : Obligations.IndexRegisterWriters := by
  refine fun nnn x s => ⟨⟨decodeOfEncode (.ldI nnn) rfl, ?ldI⟩, ⟨decodeOfEncode (.addI x) rfl, ?addI⟩,
    ⟨decodeOfEncode (.ldF x) rfl, fun hv => ?ldF⟩⟩
  case ldI => exact ⟨_, rfl, toNat_addressOf nnn, rfl, sameOutside_setI_advance s _⟩
  case addI =>
    refine ⟨_, rfl, ?_, rfl, sameOutside_setI_advance s _⟩
    rw [State.advance_i, State.setI_i, BitVec.toNat_add, BitVec.toNat_setWidth_of_le (by decide)]
  case ldF => exact ⟨_, rfl, toNat_glyphAddress hv _, rfl, sameOutside_setI_advance s _⟩

/-! ### Addresses in user space -/

theorem inUser_of_range {c : Config} {a n : Nat} (hstart : c.userStart ≤ a) (hend : a + n ≤ c.userEnd) :
    ∀ k < n, inUser c (a + k) = true :=
  fun k hk => (inUser_iff c _).2 (by omega)

theorem inUser_eq_false {c : Config} {a : Nat} (h : ¬ (c.userStart ≤ a ∧ a < c.userEnd)) : inUser c a = false :=
  eq_false_of_ne_true (mt (inUser_iff c a).1 h)

/-! ### Byte writes -/

section Storing

variable {s : State} {a k : Nat} {bs : List Byte}

theorem byteAt_setMem_writeAll {b : Byte} (h : bs[k]? = some b) :
    (s.setMem (Memory.writeAll s.cfg s.mem a bs)).byteAt (a + k) = b := by
  obtain ⟨hlt, -⟩ := List.getElem?_eq_some_iff.1 h
  rw [State.byteAt_setMem, Memory.read_writeAll, if_pos (by omega), Nat.add_sub_cancel_left,
    List.getD_eq_getElem?_getD, h, Option.getD_some]

theorem sameBytesOutside_setMem_writeAll {n : Nat} (hn : bs.length = n) :
    State.sameBytesOutside a n s (s.setMem (Memory.writeAll s.cfg s.mem a bs)) := fun k hk => by
  rw [State.byteAt_setMem, Memory.read_writeAll, if_neg (by omega), State.byteAt]

/-- An instruction whose byte writes are all in user space makes them, and advances. -/
theorem finish_writeBytes_of_inUser (h : ∀ k < bs.length, inUser s.cfg (a + k) = true) :
    ∃ t, finish (writeBytes s a bs) = .next t ∧ (∀ k b, bs[k]? = some b → t.byteAt (a + k) = b) ∧
      State.sameBytesOutside a bs.length s t ∧ t.pc = s.pc + 2#16 ∧ State.sameOutside [.mem, .pc] s t := by
  refine ⟨_, congrArg finish (writeBytes_done h), fun _ _ => byteAt_setMem_writeAll,
    sameBytesOutside_setMem_writeAll rfl, rfl, ?_⟩
  simp [State.sameOutside]

/-- An instruction whose byte writes first leave user space at `a + k` makes the `k` writes before, and faults (R63). -/
theorem finish_writeBytes_of_outside (hk : k < bs.length) (h : ∀ j < k, inUser s.cfg (a + j) = true)
    (hout : inUser s.cfg (a + k) = false) :
    ∃ t, finish (writeBytes s a bs) = .next t ∧ State.faultedWith .outOfRange (.address (a + k)) s t ∧
      (∀ j < k, ∀ b, bs[j]? = some b → t.byteAt (a + j) = b) ∧ State.sameBytesOutside a k s t ∧
      State.sameOutside [.mem, .fault, .engine, .events] s t := by
  refine ⟨_, congrArg finish (writeBytes_raised hk h hout), (enterFault_spec _ _).1, fun j hj b hb => ?_, ?_, ?_⟩
  · exact byteAt_setMem_writeAll ((List.getElem?_take_of_lt hj).trans hb)
  · exact sameBytesOutside_setMem_writeAll (List.length_take_of_le hk.le)
  · simp [State.sameOutside]

/-- Byte writes that come to their end are all in user space. -/
theorem inUser_of_writeBytes_done {u : State} (h : writeBytes s a bs = .done u) :
    ∀ k < bs.length, inUser s.cfg (a + k) = true := by
  induction bs generalizing s a with
  | nil => exact fun k hk => absurd hk (Nat.not_lt_zero k)
  | cons b bs ih =>
    rcases writeByte_spec s a b with ⟨hu, e⟩ | ⟨-, e⟩ <;> simp only [writeBytes, e] at h
    · intro k hk
      cases k with
      | zero => exact hu
      | succ k =>
        rw [show a + (k + 1) = a + 1 + k by omega]
        exact ih h k (Nat.lt_of_succ_lt_succ hk)
    · cases h

end Storing

/-- Where the `k`-th byte of the digits of `v` stands at an address, it is the `k`-th digit as a number (R214). -/
theorem toNat_byteAt_of_decimalDigits {t : State} {a k d : Nat} {v : Byte}
    (hbyte : ∀ b, (decimalDigits v)[k]? = some b → t.byteAt (a + k) = b)
    (hd : [v.toNat / 100, v.toNat / 10 % 10, v.toNat % 10][k]? = some d) : (t.byteAt (a + k)).toNat = d := by
  rw [← map_toNat_decimalDigits, List.getElem?_map, Option.map_eq_some_iff] at hd
  obtain ⟨b, hb, rfl⟩ := hd
  rw [hbyte b hb]

/-- Settles O39: the three writes of the digits, all of them or those before the first address outside user space. -/
theorem decimalDigitsStored : Obligations.DecimalDigitsStored := by
  refine fun x s => ⟨decodeOfEncode (.ldB x) rfl, fun hstart hend => ?_, fun k hk hin hout => ?_⟩
  · obtain ⟨t, hexec, hbytes, hother, hpc, hframe⟩ :=
      finish_writeBytes_of_inUser (bs := decimalDigits (s.readV x)) (inUser_of_range hstart hend)
    exact ⟨t, hexec, toNat_byteAt_of_decimalDigits (hbytes 0) rfl, toNat_byteAt_of_decimalDigits (hbytes 1) rfl,
      toNat_byteAt_of_decimalDigits (hbytes 2) rfl, hother, hpc, hframe⟩
  · obtain ⟨t, hexec, hfault, hbytes, hother, hframe⟩ :=
      finish_writeBytes_of_outside (bs := decimalDigits (s.readV x)) hk
        (fun j hj => (inUser_iff _ _).2 (hin j hj)) (inUser_eq_false hout)
    exact ⟨t, hexec, hfault, fun h0 => toNat_byteAt_of_decimalDigits (hbytes 0 h0) rfl,
      fun h1 => toNat_byteAt_of_decimalDigits (hbytes 1 h1) rfl, hother, hframe⟩

theorem getElem?_map_regsUpTo {α : Type} (f : Reg → α) {x k : Reg} (h : k ≤ x) :
    ((regsUpTo x).map f)[k.val]? = some (f k) := by
  rw [List.getElem?_map, getElem?_regsUpTo x k h, Option.map_some]

theorem length_map_regsUpTo {α : Type} (f : Reg → α) (x : Reg) : ((regsUpTo x).map f).length = x.val + 1 := by
  rw [List.length_map, length_regsUpTo]

/-- Settles O40: the writes of the registers, all of them or those before the first address outside user space. -/
theorem registersStored : Obligations.RegistersStored := by
  refine fun x s => ⟨decodeOfEncode (.ldMemVx x) rfl, fun hstart hend => ?_, fun k hk hin hout => ?_⟩
  · obtain ⟨t, hexec, hbytes, hother, hpc, hframe⟩ :=
      finish_writeBytes_of_inUser (bs := (regsUpTo x).map s.readV)
        (by rw [length_map_regsUpTo]; exact inUser_of_range hstart hend)
    exact ⟨t, hexec, fun k hk => hbytes k.val _ (getElem?_map_regsUpTo s.readV hk),
      length_map_regsUpTo s.readV x ▸ hother, hpc, hframe⟩
  · obtain ⟨t, hexec, hfault, hbytes, hother, hframe⟩ :=
      finish_writeBytes_of_outside (bs := (regsUpTo x).map s.readV)
        (by rw [length_map_regsUpTo]; exact Nat.lt_succ_of_le hk)
        (fun j hj => (inUser_iff _ _).2 (hin ⟨j, hj.trans k.isLt⟩ hj)) (inUser_eq_false hout)
    exact ⟨t, hexec, hfault, fun j hj => hbytes j.val hj _ (getElem?_map_regsUpTo s.readV (hj.le.trans hk)),
      hother, hframe⟩

/-! ### Reads into registers -/

section Loading

variable {s : State} {a k : Nat} {xs : List Reg}

/-- An instruction whose reads into registers are all in user space makes them, and advances. -/
theorem finish_readIntoRegs_of_inUser (hn : xs.Nodup) (h : ∀ k < xs.length, inUser s.cfg (a + k) = true) :
    ∃ t, finish (readIntoRegs s a xs) = .next t ∧ (∀ k r, xs[k]? = some r → t.readV r = s.byteAt (a + k)) ∧
      (∀ r ∉ xs, t.readV r = s.readV r) ∧ t.pc = s.pc + 2#16 ∧ State.sameOutside [.regs, .pc] s t := by
  refine ⟨_, congrArg finish (readIntoRegs_done h), fun _ _ => readV_loadedRegs hn,
    fun _ => readV_loadedRegs_of_notMem, ?_⟩
  rw [loadedRegs_frame]
  simp [State.sameOutside, State.byteAt]

/-- An instruction whose reads into registers first leave user space at `a + k` makes the `k` reads before, and faults
(R63). -/
theorem finish_readIntoRegs_of_outside (hn : xs.Nodup) (hk : k < xs.length)
    (h : ∀ j < k, inUser s.cfg (a + j) = true) (hout : inUser s.cfg (a + k) = false) :
    ∃ t, finish (readIntoRegs s a xs) = .next t ∧ State.faultedWith .outOfRange (.address (a + k)) s t ∧
      (∀ j < k, ∀ r, xs[j]? = some r → t.readV r = s.byteAt (a + j)) ∧
      (∀ r ∉ xs.take k, t.readV r = s.readV r) ∧ State.sameOutside [.regs, .fault, .engine, .events] s t := by
  refine ⟨_, congrArg finish (readIntoRegs_raised hk h hout), ?_, fun j hj r hr => ?_,
    fun _ => readV_loadedRegs_of_notMem, ?_⟩
  · rw [loadedRegs_frame]
    exact (enterFault_spec _ _).1
  · exact readV_loadedRegs (hn.sublist (List.take_sublist k xs)) ((List.getElem?_take_of_lt hj).trans hr)
  · rw [loadedRegs_frame]
    simp [State.sameOutside, State.byteAt]

end Loading

/-- Settles O41: the reads into the registers, all of them or those before the first address outside user space. -/
theorem registersLoaded : Obligations.RegistersLoaded := by
  refine fun x s => ⟨decodeOfEncode (.ldVxMem x) rfl, fun hstart hend => ?_, fun k hk hin hout => ?_⟩
  · obtain ⟨t, hexec, hregs, hother, hpc, hframe⟩ :=
      finish_readIntoRegs_of_inUser (nodup_regsUpTo x)
        (by rw [length_regsUpTo]; exact inUser_of_range hstart hend)
    exact ⟨t, hexec, fun k hk => hregs k.val k (getElem?_regsUpTo x k hk),
      fun r hr => hother r (mt (mem_regsUpTo x r).1 hr.not_ge), hpc, hframe⟩
  · obtain ⟨t, hexec, hfault, hregs, hother, hframe⟩ :=
      finish_readIntoRegs_of_outside (nodup_regsUpTo x) (by rw [length_regsUpTo]; exact Nat.lt_succ_of_le hk)
        (fun j hj => (inUser_iff _ _).2 (hin ⟨j, hj.trans k.isLt⟩ hj)) (inUser_eq_false hout)
    exact ⟨t, hexec, hfault, fun j hj => hregs j.val hj j (getElem?_regsUpTo x j (hj.le.trans hk)),
      fun r hr => hother r (mt (take_regsUpTo x k hk r).1 hr.not_gt), hframe⟩

/-- Settles O42: a store that completed was in user space throughout, so the load from the same addresses completes, and
reads the bytes that the store left there. -/
theorem storedRegistersLoadBack : Obligations.StoredRegistersLoadBack := by
  intro x s t s' hexec _ ht hcfg hmem hi
  obtain ⟨_, hdone, -⟩ := eq_done_of_finish_running hexec ht
  have hin := inUser_of_writeBytes_done hdone
  obtain ⟨t', ht', hbytes, -, -, hcfg', -, hi', -⟩ := finish_writeBytes_of_inUser hin
  obtain rfl : t' = t := Host.Outcome.next.inj (ht'.symm.trans hexec)
  replace hi : s'.i = s.i := hi.trans (hi' (by decide))
  have hbyte (a : Nat) : s'.byteAt a = t'.byteAt a := by simp only [State.byteAt, hcfg, hmem]
  rw [← hcfg', ← hcfg, ← hi, List.length_map] at hin
  obtain ⟨u, hexec', hregs, -, hpc, -⟩ := finish_readIntoRegs_of_inUser (nodup_regsUpTo x) hin
  refine ⟨u, hexec', fun k hk => ?_, hpc⟩
  rw [hregs k.val k (getElem?_regsUpTo x k hk), hbyte, hi]
  exact hbytes k.val _ (getElem?_map_regsUpTo s.readV hk)

end Sys2Proof.Machine
end

section
/-! PROOFS. Key input (R230 to R234): what `pressed` says of the latch, a key's value as a byte, and what FX0A answers
in each state of the latch. -/

namespace Sys2Proof.Machine

/-! ### The latch -/

/-- `pressed(v)` is the latch holding a key of value `v` (R230). -/
theorem keyPressed_iff (key : Option Key) (v : Byte) :
    keyPressed key v = true ↔ ∃ k : Key, key = some k ∧ k.val = v.toNat := by
  cases key with
  | none => simp [keyPressed]
  | some k => simp [keyPressed]

theorem keyPressed_eq_false_iff (key : Option Key) (v : Byte) :
    keyPressed key v = false ↔ ¬ ∃ k : Key, key = some k ∧ k.val = v.toNat := by
  rw [← keyPressed_iff, Bool.not_eq_true]

/-- A key's value fits in a register. -/
theorem toNat_keyByte (k : Key) : (keyByte k).toNat = k.val :=
  (BitVec.toNat_ofNat _ _).trans (Nat.mod_eq_of_lt (k.isLt.trans (by decide)))

/-! ### Waiting for a key -/

theorem exec_ldVxK_of_key {s : State} {k : Key} (x : Reg) (h : s.key = some k) :
    exec (.ldVxK x) s = .next (s.writeV x (keyByte k)).advance := by
  simp only [exec, execLdVxK, h, finish]

theorem exec_ldVxK_of_no_key {s : State} (x : Reg) (h : s.key = none) : exec (.ldVxK x) s = .next s := by
  simp only [exec, execLdVxK, h]

/-! ### The statements -/

/-- Settles O45: both are skips, on `pressed` and on its negation. -/
theorem keySkips : Obligations.KeySkips := by
  intro x s
  have hpressed := (keyPressed_iff s.key (s.readV x)).2
  have hnot := (keyPressed_eq_false_iff s.key (s.readV x)).2
  exact ⟨⟨decodeOfEncode (.skp x) rfl, skip_spec rfl hpressed hnot⟩,
    ⟨decodeOfEncode (.sknp x) rfl,
      skip_spec rfl (fun h => congrArg not (hnot h)) (fun h => congrArg not (hpressed h))⟩⟩

/-- Settles O46: with a key FX0A is one register write of its value, which leaves the latch alone; with none it answers
the state it was given. -/
theorem keyWait : Obligations.KeyWait := by
  refine fun x s => ⟨decodeOfEncode (.ldVxK x) rfl, fun k hkey => ?_, exec_ldVxK_of_no_key x⟩
  obtain ⟨⟨hx, hother⟩, hpc, hframe⟩ := writeV_advance_spec x (keyByte k) s
  exact ⟨_, exec_ldVxK_of_key x hkey, (congrArg BitVec.toNat hx).trans (toNat_keyByte k), hother, hkey, hpc, hframe⟩

end Sys2Proof.Machine
end

section
/-! PROOFS. The order of the turns (R250, R251): whose turn is next, and that the open order gives every agent its turn
again and again. -/

namespace Sys2Proof.Machine

/-! ### The next turn -/

/-- A round takes its free turns first (log entry 14). -/
theorem openTurn_of_free {o : Order} (h : o.used < Config.freeGap o.round) :
    openTurn o = Config.freeTurn o.round o.used ∧ o.next = { round := o.round, used := o.used + 1 } :=
  ⟨if_pos h, if_pos h⟩

/-- The turn that is due ends the round (log entry 14). -/
theorem openTurn_of_due {o : Order} (h : Config.freeGap o.round ≤ o.used) :
    openTurn o = dueTurn o.round ∧ o.next = { round := o.round + 1, used := 0 } :=
  ⟨if_neg h.not_gt, if_neg h.not_gt⟩

/-- Settles O8: the step's own two cases, and the next turn's three. -/
theorem stepTakesTheNextTurn : Obligations.StepTakesTheNextTurn := by
  intro s
  refine ⟨fun hv => if_pos hv, fun hv => if_neg (by simp [hv]), by simp [State.sameOutside],
    fun _ _ => nextTurn_settled, fun hempty hfree => ?_, fun hempty hdue => ?_⟩
  · obtain ⟨hturn, hschedule, horder⟩ := nextTurn_open hempty
    obtain ⟨hfreeTurn, hnext⟩ := openTurn_of_free hfree
    exact ⟨hturn.trans hfreeTurn, hschedule, horder.trans hnext⟩
  · obtain ⟨hturn, hschedule, horder⟩ := nextTurn_open hempty
    obtain ⟨hdueTurn, hnext⟩ := openTurn_of_due hdue
    exact ⟨hturn.trans hdueTurn, hschedule, horder.trans hnext⟩

/-! ### The turn that an agent is due -/

/-- The turn with which an agent ends a round of the open order. -/
def Agent.roundTurn : Agent → Turn
  | .cpu => .cpu
  | .delayTick => .delayTick
  | .soundTick => .soundTick
  | .host => .host .snapshot

theorem agentOf_roundTurn (a : Agent) : agentOf a.roundTurn = a := by
  cases a <;> rfl

/-- An agent other than the host has that one turn, and the host's snapshot is always a step. -/
theorem turnEnabled_roundTurn {a : Agent} {s : State} (h : agentEnabled a s) : turnEnabled a.roundTurn s := by
  obtain ⟨t, rfl, ht⟩ := h
  cases t with
  | cpu | delayTick | soundTick => exact ht
  | host => trivial

/-- The rotation comes back to every agent. -/
theorem exists_round_of_agent (a : Agent) (r : Nat) : ∃ q ≥ r, dueTurn q = a.roundTurn := by
  cases a with
  | cpu => exact ⟨4 * r, by omega, by simp [dueTurn, Agent.roundTurn]⟩
  | delayTick => exact ⟨4 * r + 1, by omega, by simp [dueTurn, Agent.roundTurn]⟩
  | soundTick => exact ⟨4 * r + 2, by omega, by simp [dueTurn, Agent.roundTurn]⟩
  | host => exact ⟨4 * r + 3, by omega, by simp [dueTurn, Agent.roundTurn]⟩

/-! ### The turns of an infinite run -/

/-- No turn is settled, and the next one is the turn that is due in round `r`, which ends the round. -/
def State.endsRound (r : Nat) (s : State) : Prop :=
  s.schedule = [] ∧ s.order.round = r ∧ Config.freeGap r ≤ s.order.used

theorem nextTurn_of_endsRound {r : Nat} {s : State} (h : s.endsRound r) : nextTurn s = dueTurn r := by
  obtain ⟨hempty, rfl, hdue⟩ := h
  exact (nextTurn_open hempty).1.trans (openTurn_of_due hdue).1

namespace IsRun

variable {run : Nat → State} (h : IsRun run)
include h

/-- A run takes the settled turns, and then those of the open order. -/
theorem turns_succ (n : Nat) : (run (n + 1)).schedule = (run n).schedule.tail ∧
    (run (n + 1)).order = orderAfter (run n).schedule (run n).order := by
  obtain ⟨t, ht, -, hschedule, horder⟩ := step_total (step_next (h n)).1
  obtain rfl : t = run (n + 1) := Host.Outcome.next.inj (ht.symm.trans (h n))
  exact ⟨hschedule, horder⟩

/-- The settled turns come to an end. -/
theorem exists_schedule_nil (n : Nat) : ∃ m ≥ n, (run m).schedule = [] := by
  have hdrop (k : Nat) : (run (n + k)).schedule = (run n).schedule.drop k := by
    induction k with
    | zero => rfl
    | succ k ih => rw [← Nat.add_assoc, (h.turns_succ (n + k)).1, ih, List.tail_drop]
  exact ⟨n + (run n).schedule.length, Nat.le_add_right _ _, by rw [hdrop, List.drop_length]⟩

/-- The free turns of a round come to an end. -/
theorem exists_endsRound_of_nil {n : Nat} (hempty : (run n).schedule = []) :
    ∃ m ≥ n, (run m).endsRound (run n).order.round := by
  induction hgap : Config.freeGap (run n).order.round - (run n).order.used generalizing n with
  | zero => exact ⟨n, le_rfl, hempty, rfl, by omega⟩
  | succ k ih =>
    obtain ⟨hschedule, horder⟩ := h.turns_succ n
    have hnext : (run (n + 1)).order = { round := (run n).order.round, used := (run n).order.used + 1 } := by
      rw [horder, hempty]
      exact (openTurn_of_free (by omega)).2
    obtain ⟨m, hm, hends⟩ :=
      ih (n := n + 1) (by rw [hschedule, hempty, List.tail_nil]) (by rw [hnext]; dsimp only; omega)
    exact ⟨m, (Nat.le_succ n).trans hm, by rwa [hnext] at hends⟩

/-- Every later round comes to its end. -/
theorem exists_endsRound {n r : Nat} (hempty : (run n).schedule = []) (hr : (run n).order.round ≤ r) :
    ∃ m ≥ n, (run m).endsRound r := by
  induction r, hr using Nat.le_induction with
  | base => exact h.exists_endsRound_of_nil hempty
  | succ r _ ih =>
    obtain ⟨m, hm, hnil, rfl, hdue⟩ := ih
    obtain ⟨hschedule, horder⟩ := h.turns_succ m
    have hnext : (run (m + 1)).order = { round := (run m).order.round + 1, used := 0 } := by
      rw [horder, hnil]
      exact (openTurn_of_due hdue).2
    obtain ⟨l, hl, hends⟩ := h.exists_endsRound_of_nil (n := m + 1) (by rw [hschedule, hnil, List.tail_nil])
    exact ⟨l, by omega, by rwa [hnext] at hends⟩

/-- Each agent is due at or after every point of a run. -/
theorem exists_nextTurn_eq (a : Agent) (n : Nat) : ∃ m ≥ n, nextTurn (run m) = a.roundTurn := by
  obtain ⟨k, hk, hempty⟩ := h.exists_schedule_nil n
  obtain ⟨r, hr, hturn⟩ := exists_round_of_agent a (run k).order.round
  obtain ⟨m, hm, hends⟩ := h.exists_endsRound hempty hr
  exact ⟨m, hk.trans hm, (nextTurn_of_endsRound hends).trans hturn⟩

end IsRun

/-- Settles O9: each agent is due again and again, and the turn it is due is a step where the agent is enabled. -/
theorem everyRunIsWeaklyFair : Obligations.EveryRunIsWeaklyFair := by
  intro run hrun
  refine ⟨fun a n => ?_, fun a n henabled => ?_⟩
  · obtain ⟨m, hm, hturn⟩ := hrun.exists_nextTurn_eq a n
    exact ⟨m, hm, by rw [hturn, agentOf_roundTurn]⟩
  · obtain ⟨m, hm, hturn⟩ := hrun.exists_nextTurn_eq a n
    refine ⟨m, hm, ?_⟩
    rw [agentSteps, hturn]
    exact ⟨agentOf_roundTurn a, turnEnabled_roundTurn (henabled m hm)⟩

end Sys2Proof.Machine
end

section
/-! PROOFS. One tick (R255, R256), and a run of sound ticks: the state that it leaves, written out. -/

namespace Sys2Proof.Machine

theorem takeTurn_delayTick {s : State} (he : s.engine = .running) :
    takeTurn .delayTick s = .next (delayTickBody s) :=
  congrArg Host.Outcome.next (if_pos he)

theorem takeTurn_soundTick {s : State} (he : s.engine = .running) :
    takeTurn .soundTick s = .next (soundTickBody s) :=
  congrArg Host.Outcome.next (if_pos he)

/-- The counter is still above zero after a decrement exactly when it was above one. -/
theorem countDown_ne_zero_iff (c : Byte) : countDown c ≠ 0#8 ↔ 1 < c.toNat := by
  have hc := toNat_countDown c
  bv_omega

/-- Settles O32, from the closed form of the delay tick. -/
theorem delayTickStep : Obligations.DelayTickStep := by
  intro s he
  refine ⟨_, takeTurn_delayTick he, ?_⟩
  rw [delayTickBody_eq]
  exact ⟨toNat_countDown _, rfl, fun hset => by simp [hset], fun hclear => by simp [hclear],
    by simp [State.sameOutside, State.readV, State.byteAt]⟩

/-- Settles O33, from the closed form of the sound tick. -/
theorem soundTickStep : Obligations.SoundTickStep := by
  intro s he
  refine ⟨_, takeTurn_soundTick he, ?_⟩
  rw [soundTickBody_eq]
  refine ⟨toNat_countDown _, ?_, fun htone => ?_, fun hnone => ?_, ?_⟩
  · rw [Bool.and_eq_true, decide_eq_true_eq, countDown_ne_zero_iff]
  · simp only [if_pos htone, toneOf]
  · simp only [if_neg hnone, List.append_nil]
  · simp [State.sameOutside, State.readV, State.byteAt]

/-- The tones of `n` active ticks from counter value `c` on (R256). -/
def tones (cfg : Config) (n c : Nat) : List Notification :=
  (List.range (min n c)).map fun k => .toneRequest { ticks := c - k, hz := cfg.timerHz }

@[simp] theorem tones_zero_ticks (cfg : Config) (c : Nat) : tones cfg 0 c = [] := by
  simp [tones]

@[simp] theorem tones_zero_counter (cfg : Config) (n : Nat) : tones cfg n 0 = [] := by
  simp [tones]

theorem tones_succ (cfg : Config) (n : Nat) {c : Nat} (hc : c ≠ 0) :
    tones cfg (n + 1) c = .toneRequest { ticks := c, hz := cfg.timerHz } :: tones cfg n (c - 1) := by
  obtain ⟨c, rfl⟩ := Nat.exists_eq_succ_of_ne_zero hc
  simp [tones, List.range_succ_eq_map, Nat.succ_min_succ, Function.comp_def]

/-- The first of these ticks requests a tone unless the counter is zero; the others find the latch clear if it is now
zero, when none is left to come. -/
theorem tones_first_tick (cfg : Config) (n : Nat) (c : Byte) :
    ((if c ≠ 0#8 then [toneOf cfg c] else []) ++
      if countDown c ≠ 0#8 then tones cfg n (countDown c).toNat else []) = tones cfg (n + 1) c.toNat := by
  by_cases hc : c = 0#8
  · subst hc
    simp [countDown]
  · have hne : c.toNat ≠ 0 := fun h => hc (BitVec.eq_of_toNat_eq h)
    rw [if_pos hc, tones_succ cfg n hne, toNat_countDown]
    by_cases hlast : countDown c = 0#8
    · have hzero : c.toNat - 1 = 0 := by rw [← toNat_countDown, hlast, BitVec.toNat_zero]
      simp [hlast, hzero, toneOf]
    · simp [hlast, toneOf]

/-- Whether the latch is still set after `n` more ticks. -/
theorem latch_first_tick (n : Nat) (c : Byte) :
    (decide (countDown c ≠ 0#8) && decide (n = 0 ∨ n < (countDown c).toNat)) =
      decide (n + 1 = 0 ∨ n + 1 < c.toNat) := by
  rw [← Bool.decide_and, decide_eq_decide, countDown_ne_zero_iff, toNat_countDown]
  omega

/-- `s` after `n` sound ticks of a Running engine, with the turns `rest` left to come. -/
def afterSoundTicks (n : Nat) (rest : List Turn) (s : State) : State :=
  { s with
    st := { counter := countDown^[n] s.st.counter, latch := s.st.latch && decide (n = 0 ∨ n < s.st.counter.toNat) }
    events := s.events ++ if s.st.latch then tones s.cfg n s.st.counter.toNat else []
    schedule := rest }

theorem afterSoundTicks_succ {n : Nat} {s : State} {rest : List Turn}
    (hs : s.schedule = .soundTick :: (List.replicate n .soundTick ++ rest)) :
    afterSoundTicks n rest (soundTickBody (popTurn s)) = afterSoundTicks (n + 1) rest s := by
  obtain ⟨-, -, horder⟩ := nextTurn_settled hs
  rw [popTurn_order] at horder
  cases h : s.st.latch with
  | false => simp [afterSoundTicks, soundTickBody_eq, popTurn, horder, h]
  | true =>
    simpa [afterSoundTicks, soundTickBody_eq, popTurn, horder, h, ← tones_first_tick] using
      latch_first_tick n s.st.counter

theorem run_soundTicks {n : Nat} {s : State} {rest : List Turn} (hv : s.cfg.valid = true)
    (he : s.engine = .running) (hs : s.schedule = List.replicate n .soundTick ++ rest) :
    Sys2Proof.core.run n s = .next (afterSoundTicks n rest s) := by
  induction n generalizing s with
  | zero =>
    obtain rfl : s.schedule = rest := by simpa using hs
    simp [Host.Core.run, afterSoundTicks]
  | succ n ih =>
    rw [List.replicate_succ, List.cons_append] at hs
    obtain ⟨hnext, hrest, -⟩ := nextTurn_settled hs
    have hstep : step s = .next (soundTickBody (popTurn s)) :=
      (step_soundTick hv hnext).trans (takeTurn_soundTick (s := popTurn s) he)
    rw [run_succ n hstep, ih, afterSoundTicks_succ hs] <;> rw [soundTickBody_eq]
    exacts [hv, he, hrest]

/-- Settles O35, from the state that the run leaves: no tick is left for a counter above zero. -/
theorem soundTimerEmitsOneTonePerActiveTick : Obligations.SoundTimerEmitsOneTonePerActiveTick := by
  intro n s rest hv he hlatch hcounter hn hs
  have hpos : s.st.counter.toNat ≠ 0 := fun h => hcounter (BitVec.eq_of_toNat_eq h)
  refine ⟨_, run_soundTicks hv he hs, ?_, ?_, rfl, ?_⟩
  · simp [afterSoundTicks, tones, hlatch, hn]
  · have hzero : countDown^[n] s.st.counter = 0#8 :=
      BitVec.eq_of_toNat_eq ((toNat_iterate_countDown n _).trans (Nat.sub_eq_zero_of_le hn))
    have hdone : ¬ (n = 0 ∨ n < s.st.counter.toNat) := by omega
    simp [afterSoundTicks, hzero, hdone]
  · simp [State.sameOutside, afterSoundTicks, State.readV, State.byteAt]

end Sys2Proof.Machine
end

section
/-! PROOFS. Faults and the engine (R240 to R242, R263, R265): how an instruction halts the engine, and what a step does
to the engine, the fault record and the notifications. -/

namespace Sys2Proof.Machine

/-! ### Which instruction faults, and how -/

/-- `t` is `s` after fault entry, with a fault that R240 names for `i`. -/
inductive FaultOf (i : Instr) (s t : State) : Prop where
  | underflow (hi : i = .ret) (h : State.faultedWith .stackUnderflow .none s t)
  | overflow (hi : ∃ nnn, i = .call nnn) (h : State.faultedWith .stackOverflow .none s t)
  | outOfRange (hi : (∃ x y n, i = .drw x y n) ∨ ∃ x, i = .ldB x ∨ i = .ldMemVx x ∨ i = .ldVxMem x)
      (h : ∃ a, State.faultedWith .outOfRange (.address a) s t)

/-- Byte writes and the end of the instruction leave the engine as it was, or fault at an address (R63). -/
theorem finish_writeBytes_engine (s : State) (a : Nat) (bs : List Byte) :
    ∃ t, finish (writeBytes s a bs) = .next t ∧
      (t.engine = s.engine ∨ ∃ a, State.faultedWith .outOfRange (.address a) s t) := by
  rcases writeBytes_cases s a bs with ⟨m, e⟩ | ⟨m, k, e⟩ <;> rw [e]
  · exact ⟨_, rfl, .inl rfl⟩
  · exact ⟨_, rfl, .inr ⟨a + k, (enterFault_spec _ (s.setMem m)).1⟩⟩

/-- Every instruction leaves the engine as it was, or enters a fault that R240 names for it. -/
theorem exec_engine_eq_or_faultOf (i : Instr) (s : State) :
    ∃ t, exec i s = .next t ∧ (t.engine = s.engine ∨ FaultOf i s t) := by
  cases i with
  | ret =>
    rcases pop_spec s with ⟨l, a, h, -⟩ | ⟨h, -⟩
    · exact ⟨_, exec_ret_of_concat h, .inl rfl⟩
    · exact ⟨_, exec_ret_of_empty h, .inr (.underflow rfl (enterFault_spec _ s).1)⟩
  | call nnn =>
    rcases push_spec s (s.pc + 2#16) with ⟨h, -⟩ | ⟨h, -⟩
    · exact ⟨_, exec_call_of_room nnn h, .inl rfl⟩
    · exact ⟨_, exec_call_of_full nnn h, .inr (.overflow ⟨nnn, rfl⟩ (enterFault_spec _ s).1)⟩
  | drw x y n =>
    rcases readSprite_spec s s.i.toNat n with ⟨h, -⟩ | ⟨hn, h, -⟩
    · exact ⟨_, exec_drw_of_fits x y h, .inl rfl⟩
    · exact ⟨_, exec_drw_of_beyond x y hn.ne' h,
        .inr (.outOfRange (.inl ⟨x, y, n, rfl⟩) ⟨_, (enterFault_spec _ (s.writeV vf 0#8)).1⟩)⟩
  | ldB x =>
    obtain ⟨t, ht, h⟩ := finish_writeBytes_engine s s.i.toNat (decimalDigits (s.readV x))
    exact ⟨t, ht, h.imp_right (.outOfRange (.inr ⟨x, .inl rfl⟩))⟩
  | ldMemVx x =>
    obtain ⟨t, ht, h⟩ := finish_writeBytes_engine s s.i.toNat ((regsUpTo x).map s.readV)
    exact ⟨t, ht, h.imp_right (.outOfRange (.inr ⟨x, .inr (.inl rfl)⟩))⟩
  | ldVxMem x =>
    rcases readIntoRegs_cases s s.i.toNat (regsUpTo x) with ⟨v, e⟩ | ⟨v, k, e⟩ <;> simp only [exec, execLdVxMem, e]
    · exact ⟨_, rfl, .inl rfl⟩
    · exact ⟨_, rfl, .inr (.outOfRange (.inr ⟨x, .inr (.inr rfl)⟩) ⟨_, (enterFault_spec _ { s with v := v }).1⟩)⟩
  | ldVxK x => cases e : s.key <;> simp only [exec, execLdVxK, e] <;> exact ⟨_, rfl, .inl rfl⟩
  | cls | jp | jpV0 | seImm | sneImm | seReg | sneReg | skp | sknp | ldImm | addImm | ldReg | orReg | andReg | xorReg
  | addReg | sub | shr | subn | shl | rnd | ldVxDt | ldDtVx | ldStVx | ldI | addI | ldF => exact ⟨_, rfl, .inl rfl⟩

/-- Settles O47: what halts a Running engine is one of the faults of R240, whose codes are the model's. -/
theorem faultEntryIsPrecise : Obligations.FaultEntryIsPrecise := by
  refine ⟨fun i s t hexec hs ht => ?_, fun kind info s t ⟨hfault, _⟩ => ⟨_, hfault, rfl, by cases kind <;> rfl⟩⟩
  obtain ⟨u, hu, hcases⟩ := exec_engine_eq_or_faultOf i s
  obtain rfl : u = t := Host.Outcome.next.inj (hu.symm.trans hexec)
  rcases hcases with hkept | ⟨hi, h⟩ | ⟨hi, h⟩ | ⟨hi, h⟩
  · exact absurd (hkept.trans hs) ht
  · exact .inl ⟨hi, h⟩
  · exact .inr (.inl ⟨hi, h⟩)
  · exact .inr (.inr ⟨hi, h⟩)

/-! ### What a step does to the engine and the notifications -/

/-- A CPU step changes the engine, the fault record and the notifications by fault entry alone (R241). -/
theorem cpuStep_fault_entry {s t : State} (h : cpuStep s = .next t) :
    (t.engine = s.engine ∧ t.fault = s.fault ∧ t.events = s.events) ∨
      ∃ kind info, State.faultedWith kind info s t := by
  rcases cpuStep_effect h with ⟨r, rfl⟩ | ⟨-, heffect⟩
  · exact .inr ⟨r.kind, r.info, (enterFault_spec r s).1⟩
  · exact heffect.fault_entry

/-- Settles O52: the ticks keep the engine, the CPU halts it by fault entry, and the host's actions are R263's rows. -/
theorem engineStateMachine : Obligations.EngineStateMachine := by
  intro s t hstep
  rcases takeTurn_cases (step_next hstep).2 with
    rfl | ⟨hturn, he, hcpu⟩ | ⟨-, -, rfl⟩ | ⟨-, -, rfl⟩ | ⟨a, hturn, rfl⟩
  · exact .inl rfl
  · rcases cpuStep_fault_entry hcpu with ⟨hkept, -⟩ | ⟨kind, info, hfaulted⟩
    · exact .inl hkept
    · have ⟨_, hhalted, _⟩ := hfaulted
      exact .inr (.inr (.inr (.inl ⟨he, hhalted, hturn, kind, info, hfaulted⟩)))
  · exact .inl (by rw [delayTickBody_eq, popTurn_engine])
  · exact .inl (by rw [soundTickBody_eq, popTurn_engine])
  · rcases hostStep_cases a (popTurn s) with
      ⟨_, -, -, e⟩ | ⟨hz, batch, rfl, he, e⟩ | ⟨rfl, he, e⟩ | ⟨rfl, he, e⟩ | ⟨_, -, e⟩ | e <;> rw [e]
    · exact .inl rfl
    · exact .inr (.inl ⟨he, rfl, hz, batch, hturn⟩)
    · exact .inr (.inr (.inl ⟨he, rfl, hturn, rfl, rfl⟩))
    · rw [popTurn_engine] at he
      cases hs : s.engine with
      | idle => exact .inl rfl
      | running => exact absurd hs he
      | halted => exact .inr (.inr (.inr (.inr ⟨rfl, rfl, hturn, rfl⟩)))
    · exact .inl rfl
    · exact .inl rfl

/-- No host action adds a notification (R262). -/
theorem hostStep_events (a : HostAction) (s : State) : (hostStep a s).events = s.events := by
  rcases hostStep_cases a s with
    ⟨_, -, -, e⟩ | ⟨_, _, -, -, e⟩ | ⟨-, -, e⟩ | ⟨-, -, e⟩ | ⟨_, -, e⟩ | e <;> rw [e] <;> rfl

/-- At most one notification, if it depends on a condition. -/
theorem append_ite_cases {α : Type} (l : List α) (p : Prop) [Decidable p] (e : α) :
    (l ++ if p then [e] else []) = l ∨ ∃ e', (l ++ if p then [e] else []) = l ++ [e'] := by
  by_cases h : p
  · exact .inr ⟨e, by rw [if_pos h]⟩
  · exact .inl (by rw [if_neg h, List.append_nil])

/-- Settles O60: a tick adds at most its one notification, a CPU step at most that of fault entry, and a host action
none. -/
theorem eventsAreAppendOnly : Obligations.EventsAreAppendOnly := by
  intro s t hstep
  obtain ⟨hv, hturn⟩ := step_next hstep
  obtain ⟨u, hu, hcfg, -⟩ := step_total hv
  obtain rfl : u = t := Host.Outcome.next.inj (hu.symm.trans hstep)
  refine ⟨hcfg, ?_⟩
  rcases takeTurn_cases hturn with rfl | ⟨-, -, hcpu⟩ | ⟨-, -, rfl⟩ | ⟨-, -, rfl⟩ | ⟨a, -, rfl⟩
  · exact .inl rfl
  · rcases cpuStep_fault_entry hcpu with ⟨-, -, hkept⟩ | ⟨_, _, -, -, hadded, -⟩
    · exact .inl hkept
    · exact .inr ⟨_, hadded⟩
  · rw [delayTickBody_eq]; exact append_ite_cases _ _ _
  · rw [soundTickBody_eq]; exact append_ite_cases _ _ _
  · exact .inl (hostStep_events a (popTurn s))

end Sys2Proof.Machine
end

section
/-! PROOFS. The host's ports (R244, R261 to R266, R281), and the invariants after construction (R282). -/

namespace Sys2Proof.Machine

/-- Settles O49: each of the two is accepted in one state of the engine, and passes in the others. -/
theorem runAndCancel : Obligations.RunAndCancel := by
  intro hz batch s
  refine ⟨fun he => ⟨_, congrArg Host.Outcome.next (if_pos he), rfl, ?_⟩, fun he => disabledTurnsPass _ s he,
    fun he => ⟨_, congrArg Host.Outcome.next (if_pos he), rfl, ?_⟩, fun he => disabledTurnsPass _ s he⟩
  all_goals simp [State.sameOutside, State.readV, State.byteAt]

/-- Settles O50: registers, PC and display are those of the construction, and user memory is cleared. -/
theorem resetReturnsToIdle : Obligations.ResetReturnsToIdle := by
  intro s hv he
  have hdisplay : (resetBody s).display = List.replicate (s.cfg.displayW * s.cfg.displayH) false := rfl
  refine ⟨resetBody s, congrArg Host.Outcome.next (if_neg he), fun a hstart hend => ?_, fun a ha => ?_,
    State.readV_constructed s.cfg, rfl, State.pc_constructed_toNat hv, rfl, rfl, rfl, State.pixel_blank hdisplay,
    rfl, rfl, rfl, rfl, rfl⟩
  · rw [byteAt_resetBody hv, if_pos ⟨hstart, hend⟩]
  · rw [byteAt_resetBody hv, if_neg (by omega)]

/-- A pixel is its entry of the grid, row by row (R35, R266, log entry 9). -/
theorem State.pixel_eq_getD {s : State} {x y : Nat} (hx : x < s.cfg.displayW) (hy : y < s.cfg.displayH) :
    s.pixel x y = s.display.getD (y * s.cfg.displayW + x) false := by
  rw [State.pixel, decide_eq_true ⟨hx, hy⟩, Bool.true_and]

/-- Settles O51: the write of the latch, and the snapshot, which is the grid itself. -/
theorem keyLatchAndSnapshot : Obligations.KeyLatchAndSnapshot := by
  refine fun k s => ⟨⟨_, rfl, rfl, ?_⟩, rfl, fun x hx y hy => State.pixel_eq_getD hx hy⟩
  simp [State.sameOutside, hostStep, State.readV, State.byteAt]

/-- Settles O56: memory lists nothing, the stack is empty, the grid is full, no fault record stands, and PC is
`USER_START`, which lies in memory. -/
theorem constructionMeetsInvariant : Obligations.ConstructionMeetsInvariant := by
  intro c hv
  refine ⟨⟨hv, Memory.wf_nil c, Nat.zero_le _, List.length_replicate, State.Inv.fault_halts_of_none rfl⟩, ?_⟩
  exact (State.PcBounded.after_resetBody (s := State.constructed c) hv).of_eq rfl rfl

end Sys2Proof.Machine
end
